-- ==== Sys2Proof/Word.lean ====
section
/-! DEFINITION. The bit-vector types of the block (00_scope.md R10, R11; 40_bit_interleaver.md R130; 10_state.md R36, R39). -/
namespace Sys2Proof

/-- `u8`: a row byte or a lane input of the Bit Interleaver (R11). -/
abbrev Byte := BitVec 8

/-- The machine word of 32 bits (R130). -/
abbrev Word := BitVec 32

/-- A value of the time base; the spec's choice of `W` is 64 (R8, R11). -/
abbrev Time := BitVec 64

/-- `s32`: the Playback Cursor, two's complement (R36). -/
abbrev Cursor := BitVec 32

/-- One nibble of a word: bit `s` is lane `s` (R10). -/
abbrev Nibble := BitVec 4

end Sys2Proof
end

