-- ==== Sys2Proof/Config.lean ====
section
/-! DEFINITION. What is fixed for a machine (the parameters of 00_scope.md R8 and the descriptors of 10_state.md R47),
what the environment may supply (30_encoding.md R112), and the free values. -/
namespace Sys2Proof

/-- `ROW_LAYOUT` (00_scope.md R8, 41_line_packer.md R151). -/
inductive RowLayout where
  | positionMajor
  | stripMajor
  deriving DecidableEq, Repr, Inhabited

/-- `BUF_BYTE_ORDER`: which byte of a buffer word lies lowest in a byte memory outside the block (20_memory.md R72);
the two usual orders (log 20). -/
inductive ByteOrder where
  | littleEndian
  | bigEndian
  deriving DecidableEq, Repr

/-- `PLATFORM_MAP`: where a realisation places the memories in a larger address space (20_memory.md R80; log 20). -/
structure PlatformMap where
  buf : Nat
  spread : Nat
  animTable : Nat
  deriving DecidableEq, Repr

/-- One animation descriptor (10_state.md R47, R48), with the widths the rule gives. -/
structure Descriptor where
  height : BitVec 16
  period : BitVec 32
  loop : Bool
  mirror : Bool
  multiline : Bool
  rows : List (List Byte)
  deriving DecidableEq, Repr

/-- The parameters the model takes as arguments (00_scope.md R8; 92_eei_decisions.md, "Parameters left OPEN").
They stand in the state as read-only data that no step writes, so a statement over every state is one over every
configuration (DESIGN CHOICE, log 3, safe).
`SELECT_MAP` is total by its form: a code that `selList` does not list goes to `selDefault`, which is `SELECT_MAP(0)`
(log 19). -/
structure Config where
  /-- `N`, LED positions per strip. -/
  n : Nat
  /-- `ANIM_TABLE`. -/
  anims : List Descriptor
  /-- `SEL_WIDTH`. -/
  selWidth : Nat
  /-- `SELECT_MAP(0)`, the default animation. -/
  selDefault : Nat
  /-- The codes other than 0 that `SELECT_MAP` lists explicitly, with their animations. -/
  selList : List (Nat × Nat)
  /-- `TICK`, the real duration of one tick, as a number of some unit of time that the spec leaves open (log 20).
  No rule reads it: all timing is in the number of TICK steps (43_playback_controller.md R211). -/
  tick : Nat
  /-- `POLL`, in ticks. -/
  poll : Nat
  /-- `ROW_LAYOUT`. -/
  rowLayout : RowLayout
  /-- `BUF_BYTE_ORDER`, outside the block; no rule reads it (92_eei_decisions.md D25). -/
  bufByteOrder : ByteOrder
  /-- `PLATFORM_MAP`, outside the block; no rule reads it (92_eei_decisions.md D24). -/
  platformMap : PlatformMap
  deriving DecidableEq, Repr

/-- `NANIM`. -/
abbrev Config.nanim (c : Config) : Nat := c.anims.length

/-- `BUF_WORDS = 3*N`. -/
abbrev Config.bufWords (c : Config) : Nat := 3 * c.n

/-- `ROW_BYTES = 9*N` (90_conflicts.md C1). -/
abbrev Config.rowBytes (c : Config) : Nat := 9 * c.n

/-- A setting line of a stimulus script (30_encoding.md R112): it changes an input of the block and is no step. -/
inductive Setting where
  | btnN (level : Bool)
  | selCode (code : Nat)
  | orient (level : Bool)
  deriving DecidableEq, Repr, Inhabited

/-- Who takes a step (43_playback_controller.md R190, 30_encoding.md R110).
The engine's two events have exclusive conditions, so the engine's turn says which of them it is. -/
inductive Agent where
  | controller
  | buttonHandler
  | timeBase
  | engine
  /-- The environment, whose one step is RESET. -/
  | environment
  deriving DecidableEq, Repr, Inhabited

/-- One step line of a stimulus script with the settings that stand before it (30_encoding.md R112). -/
structure Line where
  sets : List Setting
  agent : Agent
  deriving DecidableEq, Repr, Inhabited

/-- Free: the line taken when the script is empty.
The spec fixes no order among the agents (93_implementation_defined.md section 2, "any order"); log 1, safe. -/
opaque Config.freeLine : Nat → Line

/-- Free: `NOW` after a RESET event, "any value (a draw)" (10_state.md R51); log 7, safe. -/
opaque Config.freeNow : Nat → Time

/-- Free: `ENG_IDX` after a RESET event, "any value" (93_implementation_defined.md section 2); log 8, safe. -/
opaque Config.freeEngIdx : Nat → Nat

/-- Free: the cursor after the cursor `c` where `c + 1` is no `s32`, which 43_playback_controller.md R192 leaves outside
its domain; log 23, safe. -/
opaque Config.freeCursor : Cursor → Cursor

end Sys2Proof
end

