-- ==== Sys2Proof/Syntax.lean ====
section
/-! DEFINITION. The operations of the block: one constructor per row of spec/opcode_table.json. -/
namespace Sys2Proof

/-- `RowRef` (42_frame_source.md R172): the blank row, or a row index of the active animation. -/
inductive RowRef where
  | blank
  | row (r : Nat)
  deriving DecidableEq, Repr, Inhabited

/-- The 29 operations.
The DV and PK rows carry no operand: "No operation carries an immediate. Operands come from registers" (30_encoding.md
R109). The FN rows take the operands their rules name. -/
inductive Instr where
  -- format DV: picked by the decode vector (30_encoding.md R104)
  | faultMode
  | evtTake
  | runStart
  | waitHeld
  | waitRel
  | haltPoll
  | emitRow
  | holdTxrow
  | emitBlank
  | holdTxblank
  | wake
  | holdSleep
  -- format PK: picked by `pk_op` (30_encoding.md R106)
  | packSingle
  | packComp
  | packBlank
  | faultPkop
  -- format FN: combinational functions, no encoding (30_encoding.md R109)
  | spread (b : Byte)
  | interleave (v0 v1 v2 v3 : Byte)
  | limit (d : Descriptor)
  | extract (d : Descriptor) (y : Int)
  | rowbyte (ref : RowRef) (o : Nat)
  | start (d : Descriptor)
  | advance (d : Descriptor) (c : Cursor)
  | select (code : Nat)
  -- format EV: events of the other agents (30_encoding.md R110)
  | reset
  | btnEdge
  | tick
  | engRead
  | engDone
  deriving DecidableEq, Repr

end Sys2Proof
end

