-- ==== Sys2Proof/Machine/State.lean ====
section
/-! DEFINITION. The state of the block and of the agents it talks to (10_state.md R30, R42, R44, R50), the faults and
refusals, and the state right after reset (R51). -/
namespace Sys2Proof.Machine

/-- `MODE` (10_state.md R32). -/
inductive Mode where
  | run
  | wait
  | halt
  /-- `11`: never written by any rule; decodes to FAULT.MODE. -/
  | reserved
  deriving DecidableEq, Repr

/-- `PHASE` (10_state.md R33). -/
inductive Phase where
  | head
  | txwRow
  | txwBlank
  | sleep
  deriving DecidableEq, Repr

/-- The registers that may hold no value (10_state.md R41): what F_UNWRITTEN_READ records. -/
inductive RegName where
  | cycleStart
  | deadline
  | buf (i : Nat)
  deriving DecidableEq, Repr

/-- The closed list of fault reasons with the value each records (60_exceptions.md R243).
A fault does not end the run: it is recorded in `State.faults` and the controller has no further step (R240, log 5). -/
inductive Fault where
  /-- F_RESERVED_MODE, code 1: raised by FAULT.MODE; records `DV`. Safe. -/
  | reservedMode (dv : Byte)
  /-- F_RESERVED_PKOP, code 2: raised by FAULT.PKOP; records `pk_op`. Safe. -/
  | reservedPkop (op : BitVec 2)
  /-- F_BUF_RACE, code 3: raised by EMIT.ROW, EMIT.BLANK and the packs run on their own; records `ENG_IDX`. Safe. -/
  | bufRace (engIdx : Nat)
  /-- F_TX_OVERLAP, code 4: raised by the TX_START of EMIT.ROW and EMIT.BLANK; records `ENG_IDX`. Safe. -/
  | txOverlap (engIdx : Nat)
  /-- F_UNWRITTEN_READ, code 5: raised by any operation that reads a register that holds no value. Safe. -/
  | unwrittenRead (reg : RegName)
  /-- F_INDEX_RANGE, code 6: raised by ROWBYTE and by any buffer access; records the index. Safe. -/
  | indexRange (index : Nat)
  deriving DecidableEq, Repr

/-- Why a step has no meaning. -/
inductive Refusal where
  /-- An instruction of the table without a meaning yet; no arm of `exec` answers it. Safe. -/
  | notModelled (mnemonic : String)
  /-- RESET or any step under a configuration that fails 00_scope.md R9, and EXTRACT of a descriptor of height 0, which R9
  does not admit: "the model has no run for it". Safe. -/
  | configNotAdmitted
  deriving DecidableEq, Repr

/-- The Packed Buffer: the words that hold a value, by index, indices strictly rising (10_state.md R45, 20_memory.md R70,
R72); a word that is not listed holds no value (R41). -/
abbrev Memory := List (Nat × Word)

/-- The event a TX_START records (43_playback_controller.md R206). -/
structure TxStart where
  time : Time
  base : Nat
  count : Nat
  frame : List Word
  deriving DecidableEq, Repr

/-- What a combinational function answers (30_encoding.md R109). -/
inductive CombValue where
  /-- SPREAD, INTERLEAVE. -/
  | word (w : Word)
  /-- LIMIT. -/
  | limit (n : Nat)
  /-- EXTRACT. -/
  | row (r : RowRef)
  /-- ROWBYTE. -/
  | byte (b : Byte)
  /-- START. -/
  | cursor (c : Cursor)
  /-- ADVANCE: the next cursor and "halt". -/
  | advance (c : Cursor) (halt : Bool)
  /-- SELECT. -/
  | anim (a : Nat)
  deriving DecidableEq, Repr

/-- The whole state. -/
structure State where
  /-- The parameters and `ANIM_TABLE`, read-only (00_scope.md R8, 10_state.md R47). -/
  cfg : Config
  /-- `MODE` (R32). -/
  mode : Mode
  /-- `PHASE` (R33). -/
  phase : Phase
  /-- `PENDING` (R35). -/
  pending : Bool
  /-- `CURSOR` (R36). -/
  cursor : Cursor
  /-- `ANIM` (R37). -/
  anim : Nat
  /-- `REVERSE` (R38). -/
  reverse : Bool
  /-- `CYCLE_START` (R39); `none` is the spec's own "holds no value" (R41). -/
  cycleStart : Option Time
  /-- `DEADLINE` (R40); `none` is the spec's own "holds no value" (R41). -/
  deadline : Option Time
  /-- `BUF` (R45). -/
  buf : Memory
  /-- The fault set, without repeats (60_exceptions.md R240). -/
  faults : List Fault
  /-- Input `BTN_N`, active low (R42, R43). -/
  btnN : Bool
  /-- Input `SEL_CODE` (R42). -/
  selCode : Nat
  /-- Input `ORIENT` (R42). -/
  orient : Bool
  /-- `NOW` of the time base (R50). -/
  now : Time
  /-- `ENG_BUSY` of the Transmit Engine, which drives `TX_BUSY` (R50). -/
  engBusy : Bool
  /-- `ENG_IDX` of the Transmit Engine (R50). -/
  engIdx : Nat
  /-- The nibbles the engine has sent since its last reset gap, oldest first (43_playback_controller.md R209). -/
  sent : List Nibble
  /-- The nibbles the LEDs latched at the last reset gap (43_playback_controller.md R208, R214). -/
  latched : List Nibble
  /-- The trace of TxStart events, oldest first (43_playback_controller.md R206, R214). -/
  trace : List TxStart
  /-- The model's own: the output of the last combinational function run on its own; nothing reads it (log 13). -/
  combOut : Option CombValue
  /-- The model's own: the stimulus lines still to be taken (30_encoding.md R112, log 1). -/
  script : List Line
  /-- The model's own: numbers the free values (log 1, 7, 8). -/
  draws : Nat
  deriving DecidableEq, Repr

/-- The reset configuration (DESIGN CHOICE, log 3, unsafe: the parameters are OPEN).
`N`, `POLL` and the layout are the common configuration of 95_test_vectors.md section 3, animation 0 is that of P1,
animation 1 that of P2, and the selection map is that of P5. -/
def exampleConfig : Config where
  n := 1
  anims :=
    [{ height := 3, period := 20, loop := false, mirror := false, multiline := false,
       rows := [[0xFF, 0, 0, 0, 0, 0, 0, 0, 0], [0, 0, 0, 0, 0xFF, 0, 0, 0, 0], [0, 0, 0, 0, 0, 0, 0, 0, 0xFF]] },
     { height := 4, period := 10, loop := true, mirror := true, multiline := true,
       rows := [List.replicate 9 0x01, List.replicate 9 0x02, List.replicate 9 0x04, List.replicate 9 0x08] }]
  selWidth := 4
  selDefault := 0
  selList := [(1, 1)]
  tick := 1
  poll := 50
  rowLayout := .positionMajor
  bufByteOrder := .littleEndian
  platformMap := { buf := 0, spread := 0, animTable := 0 }

/-- The machine right after reset (10_state.md R51) under `exampleConfig`, with the inputs of 95_test_vectors.md section 3:
button released, selector code 0, normal orientation (log 10), `NOW` and `ENG_IDX` at 0 where the spec says any value
(log 7, 8). -/
def State.reset : State where
  cfg := exampleConfig
  mode := .run
  phase := .head
  pending := false
  cursor := 0
  anim := 0
  reverse := false
  cycleStart := none
  deadline := none
  buf := []
  faults := []
  btnN := true
  selCode := 0
  orient := false
  now := 0
  engBusy := false
  engIdx := 0
  sent := []
  latched := []
  trace := []
  combOut := none
  script := []
  draws := 0

end Sys2Proof.Machine
end

