-- ==== Sys2Proof/Machine/Datapath.lean ====
section
/-! DEFINITION. The combinational functions of the block, which read no register: Bit Interleaver, row and buffer layout,
Frame Source policy, cursor policy, selection, wrap-safe time compare, serialisation order. -/
namespace Sys2Proof

/-- Bit `k` of a byte, as a word (00_scope.md R10). -/
def bitOf (b : Byte) (k : Nat) : Word := ((b >>> k) &&& 1#8).setWidth 32

/-- `SPREAD[b]`: bit `k` of `b` at bit `4k`, zero elsewhere (40_bit_interleaver.md R131, R132).
The entry is computed from the formula, as R131 allows a model to do (log 24). -/
def spread (b : Byte) : Word :=
  (bitOf b 7 <<< 28) ||| (bitOf b 6 <<< 24) ||| (bitOf b 5 <<< 20) ||| (bitOf b 4 <<< 16)
    ||| (bitOf b 3 <<< 12) ||| (bitOf b 2 <<< 8) ||| (bitOf b 1 <<< 4) ||| bitOf b 0

/-- `INTERLEAVE` (40_bit_interleaver.md R133). -/
def interleave (v0 v1 v2 v3 : Byte) : Word :=
  spread v0 ||| (spread v1 <<< 1) ||| (spread v2 <<< 2) ||| (spread v3 <<< 3)

/-- `OFF(i, s, c)`: the byte of position `i`, strip `s`, channel `c` in a row (41_line_packer.md R151). -/
def rowOffset (c : Config) (i s ch : Nat) : Nat :=
  match c.rowLayout with
  | .positionMajor => 9 * i + 3 * s + ch
  | .stripMajor => 3 * c.n * s + 3 * i + ch

/-- `CH = [1, 0, 2]`: word slot to channel, in the order G, R, B (41_line_packer.md R152, R153). -/
def channelOfSlot : Nat → Nat
  | 0 => 1
  | 1 => 0
  | _ => 2

/-- `LIMIT(d)` (42_frame_source.md R170). -/
def Descriptor.limit (d : Descriptor) : Nat :=
  if d.mirror then 2 * d.height.toNat else d.height.toNat

/-- `START(d)` (43_playback_controller.md R191). -/
def Descriptor.startCursor (d : Descriptor) : Int :=
  if d.multiline then -2 else 0

/-- `EXTRACT(d, y)`, in the order of 42_frame_source.md R171. -/
def Descriptor.extract (d : Descriptor) (y : Int) : RowRef :=
  if y < 0 then .blank
  else if d.loop = false ∧ (d.limit : Int) ≤ y then .blank
  else
    let mody := y.toNat % d.limit
    if d.mirror = true ∧ d.height.toNat ≤ mody then .row (d.limit - mody - 1) else .row mody

/-- `ADVANCE(d, c)`: the next cursor and whether the animation halts (43_playback_controller.md R192). -/
def Descriptor.advance (d : Descriptor) (c : Int) : Int × Bool :=
  let next := c + 1
  if (d.limit : Int) ≤ next then
    if d.loop then (0, false) else (next, true)
  else (next, false)

/-- `ADVANCE(d, c)` on the register: the next cursor as an `s32`, and whether the animation halts.
A sum outside `s32` is a free value (log 23); R192's domain has none. -/
def Descriptor.advanceCursor (d : Descriptor) (c : Cursor) : Cursor × Bool :=
  let r := d.advance c.toInt
  (if r.1 < 2 ^ 31 then BitVec.ofInt 32 r.1 else Config.freeCursor c, r.2)

/-- `SELECT(code) = SELECT_MAP(code)` (43_playback_controller.md R193). -/
def Config.select (c : Config) (code : Nat) : Nat :=
  if code = 0 then c.selDefault else (c.selList.lookup code).getD c.selDefault

/-- `sdiff_W(a, b)` (00_scope.md R12). -/
def sdiffW (a b : Time) : Int := (a - b).toInt

/-- The order in which the engine sends the nibbles of a word: nibble 7 first (43_playback_controller.md R209). -/
def serialise (w : Word) : List Nibble :=
  [7, 6, 5, 4, 3, 2, 1, 0].map fun k => w.extractLsb' (4 * k) 4

end Sys2Proof
end

