-- ==== Sys2Proof/WellFormed.lean ====
section
/-! DEFINITION. Which configurations are admitted (00_scope.md R9) and which operands an operation of the table takes. -/
namespace Sys2Proof

/-- A descriptor that 00_scope.md R9 admits: `1 <= height`, `period < 2^31`, and exactly `height` rows of exactly
`ROW_BYTES` bytes. -/
def Descriptor.wf (c : Config) (d : Descriptor) : Bool :=
  decide (d.height ≠ 0#16) && decide (d.period.toNat < 2 ^ 31) && decide (d.rows.length = d.height.toNat)
    && d.rows.all (fun row => decide (row.length = c.rowBytes))

/-- Configuration well-formedness (00_scope.md R9; `SEL_WIDTH >= 1` is its entry in R8, and `TICK` is positive in
92_eei_decisions.md, "Parameters left OPEN"; log 27).
Totality of `SELECT_MAP` and the rule for unlisted codes hold by the form of `Config.select`. -/
def Config.admitted (c : Config) : Bool :=
  decide (1 ≤ c.n) && decide (1 ≤ c.nanim) && c.anims.all (fun d => d.wf c)
    && decide (1 ≤ c.selWidth) && decide (c.selDefault < c.nanim)
    && c.selList.all (fun e => decide (c.select e.1 < c.nanim))
    && decide (1 ≤ c.tick) && decide (1 ≤ c.poll) && decide (c.poll < 2 ^ 31)

/-- The operands the rules name: a descriptor is admitted, EXTRACT's `y` is an `s32` (opcode_table.json), ROWBYTE's
offset is below `9N` and its row index fits a 16-bit height (42_frame_source.md R174), ADVANCE's cursor is in
`-2 .. LIMIT-1` (43_playback_controller.md R192), SELECT's code has `SEL_WIDTH` bits (R193). -/
def Instr.wf (c : Config) : Instr → Bool
  | .limit d => d.wf c
  | .extract d y => d.wf c && decide (-(2 : Int) ^ 31 ≤ y) && decide (y < 2 ^ 31)
  | .rowbyte .blank o => decide (o < c.rowBytes)
  | .rowbyte (.row r) o => decide (o < c.rowBytes) && decide (r < 2 ^ 16)
  | .start d => d.wf c
  | .advance d cur => d.wf c && decide (-2 ≤ cur.toInt) && decide (cur.toInt < d.limit)
  | .select code => decide (code < 2 ^ c.selWidth)
  | .faultMode => true
  | .evtTake => true
  | .runStart => true
  | .waitHeld => true
  | .waitRel => true
  | .haltPoll => true
  | .emitRow => true
  | .holdTxrow => true
  | .emitBlank => true
  | .holdTxblank => true
  | .wake => true
  | .holdSleep => true
  | .packSingle => true
  | .packComp => true
  | .packBlank => true
  | .faultPkop => true
  | .spread _ => true
  | .interleave _ _ _ _ => true
  | .reset => true
  | .btnEdge => true
  | .tick => true
  | .engRead => true
  | .engDone => true

end Sys2Proof
end

