-- ==== Sys2Proof/Machine/Ops.lean ====
section
/-! DEFINITION. The named operations over the buffer, the registers, the faults, the button event, the Transmit Engine
hand-over and reset. -/
namespace Sys2Proof.Machine

/-- What an operation answers. -/
abbrev Result := Host.Outcome State Fault Refusal

/-! ## The Packed Buffer -/

/-- The word at index `i`, if it holds a value. -/
def Memory.read : Memory → Nat → Option Word
  | [], _ => none
  | (a, w) :: m, i => if a = i then some w else Memory.read m i

/-- Writes word `i`, keeping the indices strictly rising. -/
def Memory.write : Memory → Nat → Word → Memory
  | [], i, w => [(i, w)]
  | (a, v) :: m, i, w =>
    if i < a then (i, w) :: (a, v) :: m
    else if i = a then (i, w) :: m
    else (a, v) :: Memory.write m i w

/-- The indices rise strictly from `lo` and stay below `hi`. -/
def Memory.risesFrom (hi : Nat) : Nat → Memory → Bool
  | _, [] => true
  | lo, (a, _) :: m => decide (lo ≤ a) && decide (a < hi) && Memory.risesFrom hi (a + 1) m

/-- The canonical form of a buffer of `words` words. -/
def Memory.wf (words : Nat) (m : Memory) : Bool := Memory.risesFrom words 0 m

/-- A buffer write: an index outside the buffer faults (20_memory.md R70, R71). -/
def Memory.store (words : Nat) (m : Memory) (i : Nat) (w : Word) : Except Fault Memory :=
  if i < words then .ok (m.write i w) else .error (.indexRange i)

/-- A buffer read: an index outside the buffer faults (20_memory.md R71), a word with no value faults (10_state.md R41). -/
def Memory.load (words : Nat) (m : Memory) (i : Nat) : Except Fault Word :=
  if i < words then
    match m.read i with
    | some w => .ok w
    | none => .error (.unwrittenRead (.buf i))
  else .error (.indexRange i)

/-- Writes `word k` to word `k`, for the `count` indices from `k` on, in ascending order. -/
def Memory.fill (words : Nat) (word : Nat → Except Fault Word) : Nat → Nat → Memory → Except Fault Memory
  | _, 0, m => .ok m
  | k, count + 1, m => do
    let w ← word k
    let m' ← m.store words k w
    Memory.fill words word (k + 1) count m'

/-- Reads the `count` words from index `k` on. -/
def Memory.loadList (words : Nat) (m : Memory) : Nat → Nat → Except Fault (List Word)
  | _, 0 => .ok []
  | k, count + 1 => do
    let w ← m.load words k
    let ws ← Memory.loadList words m (k + 1) count
    .ok (w :: ws)

/-! ## Faults and holds -/

/-- `raise Fault(reason)`: the reason joins the fault set and nothing else changes (60_exceptions.md R240, R251). -/
def State.raise (s : State) (f : Fault) : State :=
  { s with faults := if f ∈ s.faults then s.faults else s.faults ++ [f] }

/-- Ends an operation: its effect, or the fault it raised and no other effect (60_exceptions.md R240). -/
def State.settle (s : State) : Except Fault State → Result
  | .ok t => .next t
  | .error f => .next (s.raise f)

/-- What a hold waits for (60_exceptions.md R241). -/
inductive HoldReason where
  | engineBusy
  | sleeping
  deriving DecidableEq, Repr

/-- `hold(reason)`: the controller has no step now and the state is unchanged (00_scope.md R12, 60_exceptions.md R241). -/
def State.hold (s : State) (_reason : HoldReason) : Result := .next s

/-! ## Register reads and the common checks -/

/-- Reads `CYCLE_START` (10_state.md R39, R41; 43_playback_controller.md R194 check 1). -/
def State.readCycleStart (s : State) : Except Fault Time :=
  match s.cycleStart with
  | some t => .ok t
  | none => .error (.unwrittenRead .cycleStart)

/-- Reads `DEADLINE` (10_state.md R40, R41; 43_playback_controller.md R194 check 1). -/
def State.readDeadline (s : State) : Except Fault Time :=
  match s.deadline with
  | some t => .ok t
  | none => .error (.unwrittenRead .deadline)

/-- The check before a `BUF` write (43_playback_controller.md R194 check 2). -/
def State.checkBufFree (s : State) : Except Fault Unit :=
  if s.engBusy then .error (.bufRace s.engIdx) else .ok ()

/-! ## The Transmit Engine hand-over -/

/-- `emit TX_START(0, 3N)`: the engine accepts the frame in the same step (43_playback_controller.md R206), unless it is
still busy (R194 check 3). -/
def State.txStart (s : State) : Except Fault State :=
  if s.engBusy then .error (.txOverlap s.engIdx)
  else do
    let frame ← s.buf.loadList s.cfg.bufWords 0 s.cfg.bufWords
    .ok { s with
      engBusy := true
      engIdx := 0
      trace := s.trace ++ [{ time := s.now, base := 0, count := s.cfg.bufWords, frame := frame }] }

/-! ## The button event: entry and return -/

/-- Taking the button event: the analogue of exception entry, which saves nothing (60_exceptions.md R248). -/
def State.takeButtonEvent (s : State) : State :=
  { s with pending := false, mode := .wait }

/-- The start value of animation `a`'s cursor, as the register holds it (43_playback_controller.md R191).
An index outside `ANIM_TABLE` faults (20_memory.md R71); an admitted configuration has none. -/
def State.startOf (s : State) (a : Nat) : Except Fault Cursor :=
  match s.cfg.anims[a]? with
  | some d => .ok (BitVec.ofInt 32 d.startCursor)
  | none => .error (.indexRange a)

/-- Leaving WAIT: the analogue of the return, which restores nothing (60_exceptions.md R249). -/
def State.leaveWait (s : State) : Except Fault State := do
  let a := s.cfg.select s.selCode
  let c ← s.startOf a
  .ok { s with anim := a, cursor := c, mode := .run }

/-! ## Reset -/

/-- The effect of RESET (70_reset_and_hazards.md R270, 10_state.md R51).
`NOW` and `ENG_IDX` are "any value": two free values (log 7, 8); the engine is idle and holds no frame, the launch
premise of R272 (log 9). -/
def State.resetBlock (s : State) : Except Fault State := do
  let a := s.cfg.select s.selCode
  let c ← s.startOf a
  .ok { s with
    pending := false
    reverse := s.orient
    anim := a
    cursor := c
    mode := .run
    phase := .head
    cycleStart := none
    deadline := none
    buf := []
    faults := []
    engBusy := false
    engIdx := Config.freeEngIdx s.draws % (s.cfg.bufWords + 1)
    sent := []
    now := Config.freeNow s.draws
    draws := s.draws + 1 }

/-! ## Inputs and the combinational output -/

/-- A setting of an input (30_encoding.md R112).
The selector input has `SEL_WIDTH` bits, so it carries the low `SEL_WIDTH` bits of the number (log 12). -/
def State.applySetting (s : State) : Setting → State
  | .btnN level => { s with btnN := level }
  | .selCode code => { s with selCode := code % 2 ^ s.cfg.selWidth }
  | .orient level => { s with orient := level }

/-- The settings before a step line take effect in order before the line (30_encoding.md R112). -/
def State.applySettings (s : State) (sets : List Setting) : State :=
  sets.foldl State.applySetting s

/-- A combinational function run on its own shows its value at the model's output and writes nothing else (log 13). -/
def State.shows (s : State) (v : CombValue) : State := { s with combOut := some v }

end Sys2Proof.Machine
end

