-- ==== Sys2Proof/Machine/Operands.lean ====
section
/-! DEFINITION. The operands an operation takes from the state: the active descriptor, a row byte, the rows of a pack, the
`pk_op` an emit issues (30_encoding.md R107, R109). -/
namespace Sys2Proof.Machine

/-- `DESC = ANIM[ANIM]` (10_state.md R49).
An index outside `ANIM_TABLE` faults (20_memory.md R71); it is unreachable (R37). -/
def State.desc (s : State) : Except Fault Descriptor :=
  match s.cfg.anims[s.anim]? with
  | some d => .ok d
  | none => .error (.indexRange s.anim)

/-- `ROWBYTE(ref, o)` (42_frame_source.md R174): F_INDEX_RANGE if `o >= 9N`, for either kind of `ref` (log 16), or if
`r >= height`. -/
def State.rowByte (s : State) (ref : RowRef) (o : Nat) : Except Fault Byte :=
  if s.cfg.rowBytes ≤ o then .error (.indexRange o)
  else
    match ref with
    | .blank => .ok 0x00
    | .row r => do
      let d ← s.desc
      if d.height.toNat ≤ r then .error (.indexRange r)
      else
        match d.rows[r]? with
        | none => .error (.indexRange r)
        | some row =>
          match row[o]? with
          | none => .error (.indexRange o)
          | some b => .ok b

/-- The rows feeding strip slots 0, 1 and 2 of a pack. -/
structure Slots where
  s0 : RowRef
  s1 : RowRef
  s2 : RowRef
  deriving DecidableEq, Repr

/-- The row of PACK.SINGLE feeds all three slots (41_line_packer.md R154). -/
def Slots.single (row : RowRef) : Slots := ⟨row, row, row⟩

/-- The slot assignment of PACK.COMP (41_line_packer.md R155). -/
def Slots.composite (reverse : Bool) (top mid bottom : RowRef) : Slots :=
  if reverse then ⟨top, mid, bottom⟩ else ⟨bottom, mid, top⟩

/-- The row of PACK.SINGLE: `EXTRACT(DESC, CURSOR)` (41_line_packer.md R154). -/
def State.singleSlots (s : State) (d : Descriptor) : Slots :=
  Slots.single (d.extract s.cursor.toInt)

/-- The rows of PACK.COMP: `EXTRACT` at `CURSOR`, `CURSOR+1`, `CURSOR+2`, unwrapped (41_line_packer.md R156,
43_playback_controller.md R197). -/
def State.compositeSlots (s : State) (d : Descriptor) : Slots :=
  Slots.composite s.reverse (d.extract s.cursor.toInt) (d.extract (s.cursor.toInt + 1)) (d.extract (s.cursor.toInt + 2))

/-- The `pk_op` EMIT.ROW issues: `0b0 : DESC.multiline` (30_encoding.md R107). -/
def pkOpOfRow (d : Descriptor) : BitVec 2 := if d.multiline then 1#2 else 0#2

/-- The `pk_op` EMIT.BLANK issues (30_encoding.md R107). -/
def pkOpOfBlank : BitVec 2 := 2#2

end Sys2Proof.Machine
end

