-- ==== Sys2Proof/Machine/Flags.lean ====
section
/-! DEFINITION. The fields of the decode vector: the encodings of PHASE and MODE, PRESSED, TX_BUSY, REACHED, and DV itself
(30_encoding.md R101, R102). -/
namespace Sys2Proof.Machine

/-- The encoding of `MODE` (10_state.md R32). -/
def Mode.bits : Mode → BitVec 2
  | .run => 0#2
  | .wait => 1#2
  | .halt => 2#2
  | .reserved => 3#2

/-- The `MODE` of two bits (10_state.md R32). -/
def Mode.ofBits (b : BitVec 2) : Mode :=
  if b = 0#2 then .run else if b = 1#2 then .wait else if b = 2#2 then .halt else .reserved

/-- The encoding of `PHASE` (10_state.md R33). -/
def Phase.bits : Phase → BitVec 2
  | .head => 0#2
  | .txwRow => 1#2
  | .txwBlank => 2#2
  | .sleep => 3#2

/-- The `PHASE` of two bits (10_state.md R33). -/
def Phase.ofBits (b : BitVec 2) : Phase :=
  if b = 0#2 then .head else if b = 1#2 then .txwRow else if b = 2#2 then .txwBlank else .sleep

/-- `PRESSED = ~BTN_N` (10_state.md R43). -/
def State.pressed (s : State) : Bool := !s.btnN

/-- `TX_BUSY = ENG_BUSY` (10_state.md R50). -/
def State.txBusy (s : State) : Bool := s.engBusy

/-- `REACHED` (30_encoding.md R102): `DEADLINE` is read only in SLEEP. -/
def State.reached (s : State) : Except Fault Bool :=
  match s.phase with
  | .sleep => do
    let d ← s.readDeadline
    .ok (decide (0 ≤ sdiffW s.now d))
  | .head => .ok false
  | .txwRow => .ok false
  | .txwBlank => .ok false

/-- A flag as a bit of the decode vector. -/
def flagBit (b : Bool) : Byte := if b then 1 else 0

/-- `DV` from its six fields (30_encoding.md R101). -/
def dvOf (phase : Phase) (mode : Mode) (pending pressed busy reached : Bool) : Byte :=
  (phase.bits.setWidth 8 <<< 6) ||| (mode.bits.setWidth 8 <<< 4) ||| (flagBit pending <<< 3)
    ||| (flagBit pressed <<< 2) ||| (flagBit busy <<< 1) ||| flagBit reached

/-- `DV`, assembled from state and inputs (30_encoding.md R101). -/
def State.decodeVector (s : State) : Except Fault Byte := do
  let t ← s.reached
  .ok (dvOf s.phase s.mode s.pending s.pressed s.txBusy t)

end Sys2Proof.Machine
end

