-- ==== Sys2Proof/Machine/Agents.lean ====
section
/-! DEFINITION. The events of the other agents: RESET, BTN.EDGE, TICK, ENG.READ, ENG.DONE (30_encoding.md R110).
An event whose condition does not hold is no step of its agent: the state is unchanged (log 15). -/
namespace Sys2Proof.Machine

/-- RESET (70_reset_and_hazards.md R270), "defined only for a configuration admitted by" 00_scope.md R9. -/
def execReset (s : State) : Result :=
  if s.cfg.admitted then s.settle s.resetBlock else .refused .configNotAdmitted

/-- BTN.EDGE (43_playback_controller.md R210). -/
def execBtnEdge (s : State) : Result := .next { s with pending := true }

/-- TICK (43_playback_controller.md R211). -/
def execTick (s : State) : Result := .next { s with now := s.now + 1 }

/-- The condition of ENG.READ (43_playback_controller.md R207). -/
def State.engReadEnabled (s : State) : Bool := s.engBusy && decide (s.engIdx < s.cfg.bufWords)

/-- The condition of ENG.DONE (43_playback_controller.md R208). -/
def State.engDoneEnabled (s : State) : Bool := s.engBusy && decide (s.engIdx = s.cfg.bufWords)

/-- ENG.READ (43_playback_controller.md R207): the word's nibbles leave in the order of R209. -/
def execEngRead (s : State) : Result :=
  if s.engReadEnabled then
    s.settle (do
      let w ← s.buf.load s.cfg.bufWords s.engIdx
      .ok { s with sent := s.sent ++ serialise w, engIdx := s.engIdx + 1 })
  else .next s

/-- ENG.DONE (43_playback_controller.md R208): the reset gap latches what was sent, then the engine is idle. -/
def execEngDone (s : State) : Result :=
  if s.engDoneEnabled then .next { s with latched := s.sent, sent := [], engBusy := false } else .next s

end Sys2Proof.Machine
end

