-- ==== Sys2Proof/Decode.lean ====
section
/-! DEFINITION. The decoders of the two encodings (the 8-bit decode vector and the 2-bit `pk_op`), the table's numbering
of them, and the encoder. -/
namespace Sys2Proof

/-- One row of the operation map of 30_encoding.md R104. -/
structure DvRow where
  mask : Byte
  pattern : Byte
  instr : Instr
  deriving DecidableEq, Repr

/-- The operation map, in table order (30_encoding.md R104). -/
def dvTable : List DvRow :=
  [⟨0x30, 0x30, .faultMode⟩,
   ⟨0xC8, 0x08, .evtTake⟩,
   ⟨0xF8, 0x00, .runStart⟩,
   ⟨0xFC, 0x14, .waitHeld⟩,
   ⟨0xFC, 0x10, .waitRel⟩,
   ⟨0xF8, 0x20, .haltPoll⟩,
   ⟨0xC2, 0x40, .emitRow⟩,
   ⟨0xC2, 0x42, .holdTxrow⟩,
   ⟨0xC2, 0x80, .emitBlank⟩,
   ⟨0xC2, 0x82, .holdTxblank⟩,
   ⟨0xC1, 0xC1, .wake⟩,
   ⟨0xC1, 0xC0, .holdSleep⟩]

/-- A decode vector satisfies a row when `DV & mask = match`. -/
def DvRow.hit (r : DvRow) (dv : Byte) : Bool := decide (dv &&& r.mask = r.pattern)

/-- The first row the decode vector satisfies (30_encoding.md R103).
Every value has one (R105), which `decodeDv_total` in Laws/Decode.lean shows. -/
def decodeDv (dv : Byte) : Option Instr :=
  (dvTable.find? fun r => r.hit dv).map DvRow.instr

/-- The Line Packer's operation code (30_encoding.md R106). -/
def decodePk (op : BitVec 2) : Instr :=
  if op = 0#2 then .packSingle
  else if op = 1#2 then .packComp
  else if op = 2#2 then .packBlank
  else .faultPkop

/-- Why bits are no encoding. -/
inductive DecodeReject where
  /-- There are only 8-bit decode vectors and 2-bit `pk_op` codes (30_encoding.md R111). -/
  | noSuchWidth
  /-- The number has more bits than the width given. -/
  | tooWide
  /-- No row of the operation map matches; never answered (30_encoding.md R105). -/
  | noRow
  deriving DecidableEq, Repr

/-- The decoder over any bits: 8 bits are a decode vector, 2 bits a `pk_op` (30_encoding.md R111, log 14). -/
def decode (nbits w : Nat) : Except DecodeReject Instr :=
  if nbits = 8 then
    if w < 256 then
      match decodeDv (BitVec.ofNat 8 w) with
      | some i => .ok i
      | none => .error .noRow
    else .error .tooWide
  else if nbits = 2 then
    if w < 4 then .ok (decodePk (BitVec.ofNat 2 w)) else .error .tooWide
  else .error .noSuchWidth

/-- What the decoder reads from `nbits` bits numbered as spec/opcode_table.json numbers them. -/
def decodeTableWord (nbits w : Nat) : Option Instr :=
  match decode nbits w with
  | .ok i => some i
  | .error _ => none

/-- The fixed bits of an operation's decode vector as `(mask, match)`, from the patterns of 30_encoding.md R104. -/
def dvPattern : Instr → Option (Byte × Byte)
  | .faultMode => some (0b00110000, 0b00110000)
  | .evtTake => some (0b11001000, 0b00001000)
  | .runStart => some (0b11111000, 0b00000000)
  | .waitHeld => some (0b11111100, 0b00010100)
  | .waitRel => some (0b11111100, 0b00010000)
  | .haltPoll => some (0b11111000, 0b00100000)
  | .emitRow => some (0b11000010, 0b01000000)
  | .holdTxrow => some (0b11000010, 0b01000010)
  | .emitBlank => some (0b11000010, 0b10000000)
  | .holdTxblank => some (0b11000010, 0b10000010)
  | .wake => some (0b11000001, 0b11000001)
  | .holdSleep => some (0b11000001, 0b11000000)
  | .packSingle => none
  | .packComp => none
  | .packBlank => none
  | .faultPkop => none
  | .spread _ => none
  | .interleave _ _ _ _ => none
  | .limit _ => none
  | .extract _ _ => none
  | .rowbyte _ _ => none
  | .start _ => none
  | .advance _ _ => none
  | .select _ => none
  | .reset => none
  | .btnEdge => none
  | .tick => none
  | .engRead => none
  | .engDone => none

/-- The `pk_op` of a Line Packer operation (30_encoding.md R106). -/
def pkCode : Instr → Option (BitVec 2)
  | .packSingle => some 0#2
  | .packComp => some 1#2
  | .packBlank => some 2#2
  | .faultPkop => some 3#2
  | .faultMode => none
  | .evtTake => none
  | .runStart => none
  | .waitHeld => none
  | .waitRel => none
  | .haltPoll => none
  | .emitRow => none
  | .holdTxrow => none
  | .emitBlank => none
  | .holdTxblank => none
  | .wake => none
  | .holdSleep => none
  | .spread _ => none
  | .interleave _ _ _ _ => none
  | .limit _ => none
  | .extract _ _ => none
  | .rowbyte _ _ => none
  | .start _ => none
  | .advance _ _ => none
  | .select _ => none
  | .reset => none
  | .btnEdge => none
  | .tick => none
  | .engRead => none
  | .engDone => none

/-- The decode vector of an operation whose free pattern letters take their bits from `free`. -/
def encodeDv (i : Instr) (free : Byte) : Option Byte :=
  (dvPattern i).map fun p => p.2 ||| (free &&& ~~~p.1)

/-- An encoding of an operation as `(width, bits)`, its free letters taken from `free`; none for the rows that have no
encoding (30_encoding.md R109, R110). -/
def encode (i : Instr) (free : Byte) : Option (Nat × Nat) :=
  match encodeDv i free with
  | some dv => some (8, dv.toNat)
  | none => (pkCode i).map fun op => (2, op.toNat)

end Sys2Proof
end

