-- ==== Sys2Proof/Machine/Packer.lean ====
section
/-! DEFINITION. Line Packer: PACK.SINGLE, PACK.COMP, PACK.BLANK, FAULT.PKOP (41_line_packer.md). -/
namespace Sys2Proof.Machine

/-- Word slot `j` of position `i`: the gather of channel `CH[j]` of the three slots, lane 3 zero
(41_line_packer.md R154, R156, R159). -/
def State.packWord (s : State) (sl : Slots) (i j : Nat) : Except Fault Word := do
  let c := channelOfSlot j
  let v0 ← s.rowByte sl.s0 (rowOffset s.cfg i 0 c)
  let v1 ← s.rowByte sl.s1 (rowOffset s.cfg i 1 c)
  let v2 ← s.rowByte sl.s2 (rowOffset s.cfg i 2 c)
  .ok (interleave v0 v1 v2 0)

/-- Writes every word of `BUF` from the three slots: positions ascending, `BUF[3i + j]` from slot `j` of position `i`
(41_line_packer.md R153, R154, R156). -/
def State.packSlots (s : State) (sl : Slots) : Except Fault State := do
  let m ← s.buf.fill s.cfg.bufWords (fun k => s.packWord sl (k / 3) (k % 3)) 0 s.cfg.bufWords
  .ok { s with buf := m }

/-- Writes zero to every word of `BUF` (41_line_packer.md R157). -/
def State.packZero (s : State) : Except Fault State := do
  let m ← s.buf.fill s.cfg.bufWords (fun _ => .ok 0) 0 s.cfg.bufWords
  .ok { s with buf := m }

/-- The Line Packer under an operation code, with its operands from the state (30_encoding.md R106, R107). -/
def State.pack (s : State) (op : BitVec 2) : Except Fault State :=
  match decodePk op with
  | .packSingle => do
    let d ← s.desc
    s.packSlots (s.singleSlots d)
  | .packComp => do
    let d ← s.desc
    s.packSlots (s.compositeSlots d)
  | .packBlank => s.packZero
  | _ => .error (.reservedPkop op)

/-- PACK.SINGLE (41_line_packer.md R154), with the buffer check of the calling step. -/
def execPackSingle (s : State) : Result :=
  s.settle (do
    s.checkBufFree
    s.pack 0#2)

/-- PACK.COMP (41_line_packer.md R156), with the buffer check of the calling step. -/
def execPackComp (s : State) : Result :=
  s.settle (do
    s.checkBufFree
    s.pack 1#2)

/-- PACK.BLANK (41_line_packer.md R157), with the buffer check of the calling step. -/
def execPackBlank (s : State) : Result :=
  s.settle (do
    s.checkBufFree
    s.pack 2#2)

/-- FAULT.PKOP (41_line_packer.md R160): `raise Fault(F_RESERVED_PKOP)`; `BUF` unchanged. -/
def execFaultPkop (s : State) : Result := s.settle (s.pack 3#2)

end Sys2Proof.Machine
end

