-- ==== Sys2Proof/Machine/Controller.lean ====
section
/-! DEFINITION. Playback Controller: its helper functions run on their own (START, ADVANCE, SELECT) and the twelve
operations of the decode map (43_playback_controller.md, 60_exceptions.md R244). -/
namespace Sys2Proof.Machine

/-! ## Helper functions -/

/-- START (43_playback_controller.md R191). -/
def execStart (d : Descriptor) (s : State) : Result :=
  .next (s.shows (.cursor (BitVec.ofInt 32 d.startCursor)))

/-- ADVANCE (43_playback_controller.md R192). -/
def execAdvance (d : Descriptor) (c : Cursor) (s : State) : Result :=
  .next (s.shows (.advance (d.advanceCursor c).1 (d.advanceCursor c).2))

/-- SELECT (43_playback_controller.md R193). -/
def execSelect (code : Nat) (s : State) : Result := .next (s.shows (.anim (s.cfg.select code)))

/-! ## Controller operations -/

/-- FAULT.MODE (60_exceptions.md R244): records `DV`. -/
def execFaultMode (s : State) : Result :=
  s.settle (do
    let dv ← s.decodeVector
    .error (.reservedMode dv))

/-- EVT.TAKE (43_playback_controller.md R195). -/
def execEvtTake (s : State) : Result := .next s.takeButtonEvent

/-- RUN.START (43_playback_controller.md R196). -/
def execRunStart (s : State) : Result :=
  .next { s with cycleStart := some s.now, phase := .txwRow }

/-- WAIT.HELD (43_playback_controller.md R199). -/
def execWaitHeld (s : State) : Result :=
  .next { s with cycleStart := some s.now, phase := .txwBlank }

/-- WAIT.REL (43_playback_controller.md R202). -/
def execWaitRel (s : State) : Result := s.settle s.leaveWait

/-- HALT.POLL (43_playback_controller.md R203). -/
def execHaltPoll (s : State) : Result :=
  .next { s with deadline := some (s.now + BitVec.ofNat 64 s.cfg.poll), phase := .sleep }

/-- The effect of EMIT.ROW (43_playback_controller.md R197): pack, TX_START, advance, deadline, with the checks of R194 in
their order. -/
def State.emitRow (s : State) : Except Fault State := do
  let t0 ← s.readCycleStart
  s.checkBufFree
  let d ← s.desc
  let packed ← s.pack (pkOpOfRow d)
  let handed ← packed.txStart
  .ok { handed with
    cursor := (d.advanceCursor s.cursor).1
    mode := if (d.advanceCursor s.cursor).2 then .halt else s.mode
    deadline := some (t0 + d.period.setWidth 64)
    phase := .sleep }

/-- EMIT.ROW (43_playback_controller.md R197). -/
def execEmitRow (s : State) : Result := s.settle s.emitRow

/-- HOLD.TXROW (43_playback_controller.md R198). -/
def execHoldTxrow (s : State) : Result := s.hold .engineBusy

/-- The effect of EMIT.BLANK (43_playback_controller.md R200): blank fill, TX_START, deadline, with the checks of R194 in
their order. -/
def State.emitBlank (s : State) : Except Fault State := do
  let t0 ← s.readCycleStart
  s.checkBufFree
  let packed ← s.pack pkOpOfBlank
  let handed ← packed.txStart
  .ok { handed with
    deadline := some (t0 + BitVec.ofNat 64 s.cfg.poll)
    phase := .sleep }

/-- EMIT.BLANK (43_playback_controller.md R200). -/
def execEmitBlank (s : State) : Result := s.settle s.emitBlank

/-- HOLD.TXBLANK (43_playback_controller.md R201). -/
def execHoldTxblank (s : State) : Result := s.hold .engineBusy

/-- WAKE (43_playback_controller.md R204). -/
def execWake (s : State) : Result := .next { s with phase := .head }

/-- HOLD.SLEEP (43_playback_controller.md R205). -/
def execHoldSleep (s : State) : Result := s.hold .sleeping

end Sys2Proof.Machine
end

