-- ==== Sys2Proof/Machine/FrameSource.lean ====
section
/-! DEFINITION. Frame Source functions run on their own: LIMIT, EXTRACT, ROWBYTE (42_frame_source.md). -/
namespace Sys2Proof.Machine

/-- LIMIT (42_frame_source.md R170). -/
def execLimit (d : Descriptor) (s : State) : Result := .next (s.shows (.limit d.limit))

/-- EXTRACT (42_frame_source.md R171).
A descriptor of height 0 has no meaning: it is refused "rather than given a value" (92_eei_decisions.md D23, log 27). -/
def execExtract (d : Descriptor) (y : Int) (s : State) : Result :=
  if d.height = 0#16 then .refused .configNotAdmitted else .next (s.shows (.row (d.extract y)))

/-- ROWBYTE (42_frame_source.md R174). -/
def execRowbyte (ref : RowRef) (o : Nat) (s : State) : Result :=
  s.settle (do
    let b ← s.rowByte ref o
    .ok (s.shows (.byte b)))

end Sys2Proof.Machine
end

