-- ==== Sys2Proof/Machine/Interleaver.lean ====
section
/-! DEFINITION. Bit Interleaver functions run on their own: SPREAD, INTERLEAVE (40_bit_interleaver.md). -/
namespace Sys2Proof.Machine

/-- SPREAD (40_bit_interleaver.md R132): no state written, no fault. -/
def execSpread (b : Byte) (s : State) : Result := .next (s.shows (.word (spread b)))

/-- INTERLEAVE (40_bit_interleaver.md R133): no state written, no fault. -/
def execInterleave (v0 v1 v2 v3 : Byte) (s : State) : Result := .next (s.shows (.word (interleave v0 v1 v2 v3)))

end Sys2Proof.Machine
end

