-- ==== Sys2Proof/Machine/Dispatch.lean ====
section
/-! DEFINITION. One arm per operation: its meaning. -/
namespace Sys2Proof.Machine

def exec (i : Instr) (s : State) : Host.Outcome State Fault Refusal :=
  match i with
  | .faultMode => Sys2Proof.Machine.execFaultMode s
  | .evtTake => Sys2Proof.Machine.execEvtTake s
  | .runStart => Sys2Proof.Machine.execRunStart s
  | .waitHeld => Sys2Proof.Machine.execWaitHeld s
  | .waitRel => Sys2Proof.Machine.execWaitRel s
  | .haltPoll => Sys2Proof.Machine.execHaltPoll s
  | .emitRow => Sys2Proof.Machine.execEmitRow s
  | .holdTxrow => Sys2Proof.Machine.execHoldTxrow s
  | .emitBlank => Sys2Proof.Machine.execEmitBlank s
  | .holdTxblank => Sys2Proof.Machine.execHoldTxblank s
  | .wake => Sys2Proof.Machine.execWake s
  | .holdSleep => Sys2Proof.Machine.execHoldSleep s
  | .packSingle => Sys2Proof.Machine.execPackSingle s
  | .packComp => Sys2Proof.Machine.execPackComp s
  | .packBlank => Sys2Proof.Machine.execPackBlank s
  | .faultPkop => Sys2Proof.Machine.execFaultPkop s
  | .spread b => Sys2Proof.Machine.execSpread b s
  | .interleave v0 v1 v2 v3 => Sys2Proof.Machine.execInterleave v0 v1 v2 v3 s
  | .limit d => Sys2Proof.Machine.execLimit d s
  | .extract d y => Sys2Proof.Machine.execExtract d y s
  | .rowbyte ref o => Sys2Proof.Machine.execRowbyte ref o s
  | .start d => Sys2Proof.Machine.execStart d s
  | .advance d c => Sys2Proof.Machine.execAdvance d c s
  | .select code => Sys2Proof.Machine.execSelect code s
  | .reset => Sys2Proof.Machine.execReset s
  | .btnEdge => Sys2Proof.Machine.execBtnEdge s
  | .tick => Sys2Proof.Machine.execTick s
  | .engRead => Sys2Proof.Machine.execEngRead s
  | .engDone => Sys2Proof.Machine.execEngDone s

end Sys2Proof.Machine
end

