-- ==== Sys2Proof/Machine/Fetch.lean ====
section
/-! DEFINITION. Which line a step takes and which operation the line's agent runs (00_scope.md R13, 30_encoding.md R103,
R110, R112). -/
namespace Sys2Proof.Machine

/-- The next line and the state without it: the head of the script, or a free line where the script is empty (log 1). -/
def State.nextLine (s : State) : Line × State :=
  match s.script with
  | line :: rest => (line, { s with script := rest })
  | [] => (Config.freeLine s.draws, { s with draws := s.draws + 1 })

/-- The controller's operation: none once a fault is recorded (60_exceptions.md R240), else the one the decode vector
selects (30_encoding.md R103). -/
def State.controllerOp (s : State) : Except Fault (Option Instr) :=
  if s.faults = [] then do
    let dv ← s.decodeVector
    .ok (decodeDv dv)
  else .ok none

/-- The engine's event: the one whose condition holds, if any (30_encoding.md R110). -/
def State.engineOp (s : State) : Option Instr :=
  if s.engReadEnabled then some .engRead
  else if s.engDoneEnabled then some .engDone
  else none

/-- The operation an agent's turn runs, if it has a step. -/
def State.opOf (s : State) : Agent → Except Fault (Option Instr)
  | .controller => s.controllerOp
  | .buttonHandler => .ok (some .btnEdge)
  | .timeBase => .ok (some .tick)
  | .engine => .ok s.engineOp
  | .environment => .ok (some .reset)

/-- Bit `k` of a number read as a decode vector. -/
def dvBit (w k : Nat) : Bool := (w / 2 ^ k) % 2 = 1

/-- `s` arranged so that its decode vector is `w`, and the next line is the controller's (log 2).
In SLEEP the deadline is placed at `NOW` or one tick later; outside it `REACHED` is 0 whatever `w` says (30_encoding.md
R102); in TXW_ROW and TXW_BLANK a cycle has started (43_playback_controller.md R213). -/
def State.arrangeDv (s : State) (w : Nat) : State :=
  let phase := Phase.ofBits (BitVec.ofNat 2 (w / 64))
  { s with
    phase := phase
    mode := Mode.ofBits (BitVec.ofNat 2 (w / 16))
    pending := dvBit w 3
    btnN := !dvBit w 2
    engBusy := dvBit w 1
    deadline := if phase = .sleep then some (if dvBit w 0 then s.now else s.now + 1) else s.deadline
    cycleStart :=
      if phase = .txwRow ∨ phase = .txwBlank then some (s.cycleStart.getD s.now) else s.cycleStart
    faults := []
    script := { sets := [], agent := .controller } :: s.script }

/-- The first animation whose `multiline` flag is `b`, or the active one where there is none. -/
def State.animWith (s : State) (b : Bool) : Nat :=
  (s.cfg.anims.findIdx? fun d => d.multiline == b).getD s.anim

/-- `s` arranged so that the next step is the emit that issues `pk_op = w` (30_encoding.md R107): EMIT.ROW with a
single-line or multiline animation for 0 and 1, EMIT.BLANK for 2; no operation issues 3 (log 14). -/
def State.arrangePk (s : State) (w : Nat) : State :=
  if w = 0 then { s with anim := s.animWith false }.arrangeDv 0x40
  else if w = 1 then { s with anim := s.animWith true }.arrangeDv 0x40
  else if w = 2 then s.arrangeDv 0x90
  else s.arrangeDv 0x40

/-- `s` with the operation of the table's word `w` the one its next step runs. -/
def State.placeWord (s : State) (nbits w : Nat) : State :=
  if nbits = 2 then s.arrangePk w else s.arrangeDv w

end Sys2Proof.Machine
end

