-- ==== Sys2Proof/Machine/Step.lean ====
section
/-! DEFINITION. One step of the transition system (00_scope.md R13): the next line's settings, then one atomic operation of
the line's agent. -/
namespace Sys2Proof.Machine

/-- An agent's turn: it runs its operation; an agent with no step leaves the state as it is; a fault met while the decode
vector is assembled is raised (43_playback_controller.md R194 check 1). -/
def State.turn (s : State) (a : Agent) : Host.Outcome State Fault Refusal :=
  match s.opOf a with
  | .ok (some i) => exec i s
  | .ok none => .next s
  | .error f => .next (s.raise f)

/-- One step.
A configuration that is not admitted has no run (00_scope.md R9). -/
def step (s : State) : Host.Outcome State Fault Refusal :=
  if s.cfg.admitted then (s.nextLine.2.applySettings s.nextLine.1.sets).turn s.nextLine.1.agent
  else .refused .configNotAdmitted

/-- `s` with the operation of the table's word placed so that the very next step runs it (log 2). -/
def State.withFetchWord (s : State) (nbits w : Nat) : State := s.placeWord nbits w

end Sys2Proof.Machine
end

