-- ==== Sys2Proof/Machine/Script.lean ====
section
/-! DEFINITION. The pseudo-operations of the stimulus script (30_encoding.md R112, R113). -/
namespace Sys2Proof.Machine

/-- A step line with no setting before it. -/
def plainLine (a : Agent) : Line := { sets := [], agent := a }

/-- `TICK*n` (30_encoding.md R112). -/
def ticks (n : Nat) : List Line := List.replicate n (plainLine .timeBase)

/-- `FRAME`: RUN.START, EMIT.ROW; both are the controller's turn. -/
def frameLines : List Line := [plainLine .controller, plainLine .controller]

/-- `BLANKPOLL`: WAIT.HELD, EMIT.BLANK; both are the controller's turn. -/
def blankPollLines : List Line := [plainLine .controller, plainLine .controller]

/-- `DRAIN`: `3N` times ENG.READ, then ENG.DONE. -/
def drainLines (words : Nat) : List Line := List.replicate (words + 1) (plainLine .engine)

/-- `SLEEPOUT` from `s`: TICK until `REACHED = 1`, then WAKE.
Outside SLEEP `REACHED` stays 0 (30_encoding.md R102) and R113 gives no finite expansion.
DESIGN CHOICE (log 29, unsafe): there the same lines are answered, one TICK for each tick from `NOW` to `DEADLINE` and one
turn of the controller, or F_UNWRITTEN_READ where `DEADLINE` holds no value. -/
def State.sleepoutLines (s : State) : Except Fault (List Line) := do
  let r ← s.reached
  let d ← s.readDeadline
  .ok (ticks (if r then 0 else (d - s.now).toNat) ++ [plainLine .controller])

/-- `PRESS`: `set BTN_N=0`, BTN.EDGE. -/
def pressLines : List Line := [{ sets := [.btnN false], agent := .buttonHandler }]

/-- `RELEASE`: `set BTN_N=1`, a setting that takes effect before the next line. -/
def releaseSettings : List Setting := [.btnN true]

end Sys2Proof.Machine
end

