-- ==== Sys2Proof/Safety.lean ====
section
/-! DEFINITION. What a good state is: the invariants of 43_playback_controller.md R213, the buffer handoff of
20_memory.md R83 and 70_reset_and_hazards.md R274, the absence of faults (60_exceptions.md R243), and the fairness
premises of a claim that something eventually happens (70_reset_and_hazards.md R281). -/
namespace Sys2Proof.Machine

/-- The invariants of R213 on MODE, PHASE and the registers that may hold no value. -/
abbrev State.ControlOk (s : State) : Prop :=
  s.mode ≠ .reserved ∧ (s.phase = .txwRow → s.mode = .run) ∧ (s.phase = .txwBlank → s.mode = .wait)
    ∧ (s.phase = .sleep → s.deadline.isSome = true)
    ∧ (s.phase = .txwRow ∨ s.phase = .txwBlank → s.cycleStart.isSome = true)

/-- `ANIM < NANIM` (10_state.md R37), and in RUN `START(DESC) <= CURSOR < LIMIT(DESC)` (R213). -/
abbrev State.CursorOk (s : State) : Prop :=
  s.anim < s.cfg.nanim ∧
    (s.mode = .run →
      (s.cfg.anims[s.anim]?.all fun d => decide (d.startCursor ≤ s.cursor.toInt ∧ s.cursor.toInt < d.limit)) = true)

/-- The selector input has `SEL_WIDTH` bits (10_state.md R42). -/
abbrev State.InputsOk (s : State) : Prop := s.selCode < 2 ^ s.cfg.selWidth

/-- The buffer is in canonical form (10_state.md R45), and lane 3 of every word is 0 (41_line_packer.md R159). -/
abbrev State.BufferOk (s : State) : Prop :=
  s.buf.wf s.cfg.bufWords = true ∧ (s.buf.all fun e => decide (e.2 &&& 0x88888888 = 0)) = true

/-- The nibbles of a list of words in the order the engine sends them (43_playback_controller.md R207, R209). -/
def serialiseFrame (ws : List Word) : List Nibble := ws.flatMap serialise

/-- While the engine is busy, `BUF` holds exactly the frame of the last TxStart, and the engine has sent exactly its
first `ENG_IDX` words; while it is idle it holds no part of a frame (20_memory.md R83, 70_reset_and_hazards.md R274). -/
abbrev State.HandoffOk (s : State) : Prop :=
  (s.engBusy = true →
    (s.trace.getLast?.any fun ev =>
      decide ((List.range s.cfg.bufWords).map s.buf.read = ev.frame.map some)
        && decide (s.engIdx ≤ s.cfg.bufWords)
        && decide (s.sent = serialiseFrame (ev.frame.take s.engIdx))) = true)
    ∧ (s.engBusy = false → s.sent = [])

/-- What the LEDs show is nothing yet, or exactly the frame of some TxStart (43_playback_controller.md R214,
70_reset_and_hazards.md R274 consequence 1). -/
abbrev State.LatchOk (s : State) : Prop :=
  s.latched = [] ∨ (s.trace.any fun ev => decide (s.latched = serialiseFrame ev.frame)) = true

/-- Every recorded TxStart has base 0, count `3N` and a frame of `3N` words (43_playback_controller.md R206). -/
abbrev State.TraceOk (s : State) : Prop :=
  (s.trace.all fun ev =>
    decide (ev.base = 0) && decide (ev.count = s.cfg.bufWords) && decide (ev.frame.length = s.cfg.bufWords)) = true

/-- No fault has been recorded. -/
abbrev State.FaultFree (s : State) : Prop := s.faults = []

/-- The invariant of every state reachable from reset. -/
abbrev State.Inv (s : State) : Prop :=
  s.cfg.admitted = true ∧ s.ControlOk ∧ s.CursorOk ∧ s.InputsOk ∧ s.BufferOk ∧ s.HandoffOk ∧ s.FaultFree

/-! ## Fairness (70_reset_and_hazards.md R281; log 30) -/

/-- The operations that are holds (60_exceptions.md R241). -/
def holdOps : List Instr := [.holdTxrow, .holdTxblank, .holdSleep]

/-- The controller is in the hold `i`: it has no step until another agent acts. -/
def State.HeldBy (s : State) (i : Instr) : Prop := i ∈ holdOps ∧ s.controllerOp = .ok (some i)

/-- The controller has an operation that is a step: no hold, and no recorded fault. -/
def State.ControllerEnabled (s : State) : Prop := s.controllerOp ≠ .ok none ∧ ∀ i, ¬s.HeldBy i

/-- An infinite run from `r 0`: step `k` takes line `k` of an infinite script. -/
def IsRun (r : Nat → State) (line : Nat → Line) : Prop :=
  ∀ k, step { r k with script := [line k] } = .next (r (k + 1))

/-- Premise 1 of R281: TICK steps happen infinitely often. -/
def TickFair (line : Nat → Line) : Prop := ∀ k, ∃ j, k ≤ j ∧ (line j).agent = .timeBase

/-- Premise 2 of R281: while `ENG_BUSY = 1` the engine eventually takes its next step. -/
def EngineFair (r : Nat → State) (line : Nat → Line) : Prop :=
  ∀ k, ∃ j, k ≤ j ∧ ((r j).engBusy = false ∨ (line j).agent = .engine)

/-- Premise 3 of R281: an enabled controller operation is eventually taken, or ceases to be enabled (weak fairness). -/
def ControllerFair (r : Nat → State) (line : Nat → Line) : Prop :=
  ∀ k, ∃ j, k ≤ j ∧ (¬(r j).ControllerEnabled ∨ (line j).agent = .controller)

/-- A fair run: the three premises of R281 together. -/
structure FairRun (r : Nat → State) (line : Nat → Line) : Prop where
  isRun : IsRun r line
  tick : TickFair line
  engine : EngineFair r line
  controller : ControllerFair r line

end Sys2Proof.Machine
end

