-- ==== Sys2Proof/Certificates/Slice0/Obligations.lean ====
section
/-! DEFINITION. The statements for the provers. -/
namespace Sys2Proof.Machine

/-- The decode clause of an operation: among the decode vectors whose `MODE` is not the reserved `11`, exactly those that
match the row's mask select it (30_encoding.md R103, R104). -/
def SelectedBy (i : Instr) (mask pattern : Byte) : Prop :=
  ∀ dv : Byte, dv &&& 0x30 ≠ 0x30 → (decodeDv dv = some i ↔ dv &&& mask = pattern)

/-- Word `k` of the buffer `m` gathers channel `ch` of position `i`, one byte per slot, lane 3 zero (41_line_packer.md
R154, R156). -/
def HoldsWord (s : State) (sl : Slots) (m : Memory) (k i ch : Nat) : Prop :=
  ∃ v0 v1 v2 : Byte,
    s.rowByte sl.s0 (rowOffset s.cfg i 0 ch) = .ok v0 ∧ s.rowByte sl.s1 (rowOffset s.cfg i 1 ch) = .ok v1 ∧
    s.rowByte sl.s2 (rowOffset s.cfg i 2 ch) = .ok v2 ∧ m.read k = some (interleave v0 v1 v2 0)

/-- The buffer `m` holds the frame of the three slots: the words `3i`, `3i + 1`, `3i + 2` of position `i` hold Green,
Red, Blue, the channels 1, 0, 2 (41_line_packer.md R152, R153). -/
def HoldsFrame (s : State) (sl : Slots) (m : Memory) : Prop :=
  ∀ i, i < s.cfg.n →
    HoldsWord s sl m (3 * i) i 1 ∧ HoldsWord s sl m (3 * i + 1) i 0 ∧ HoldsWord s sl m (3 * i + 2) i 2

/-- The decode vector field by field, bits 7 to 6 `PHASE`, 5 to 4 `MODE`, 3 `PENDING`, 2 `PRESSED`, 1 `TX_BUSY`, 0
`REACHED`, the two encodings written out (30_encoding.md R101; 10_state.md R32, R33). -/
def VectorLayout (s : State) (reached : Bool) (dv : Byte) : Prop :=
  dv.extractLsb' 6 2 = (match s.phase with
    | .head => 0b00#2
    | .txwRow => 0b01#2
    | .txwBlank => 0b10#2
    | .sleep => 0b11#2) ∧
  dv.extractLsb' 4 2 = (match s.mode with
    | .run => 0b00#2
    | .wait => 0b01#2
    | .halt => 0b10#2
    | .reserved => 0b11#2) ∧
  dv.getLsbD 3 = s.pending ∧ dv.getLsbD 2 = !s.btnN ∧ dv.getLsbD 1 = s.engBusy ∧ dv.getLsbD 0 = reached

/-- The checks of 00_scope.md R9 written out: `N`, `NANIM`, every descriptor, `SELECT_MAP`, `POLL`. -/
def PassesChecks (c : Config) : Prop :=
  1 ≤ c.n ∧ c.anims ≠ [] ∧
  (∀ d ∈ c.anims, d.height ≠ 0 ∧ d.period.toNat < 2 ^ 31 ∧ d.rows.length = d.height.toNat ∧
    ∀ row ∈ d.rows, row.length = 9 * c.n) ∧
  (∀ code, c.select code < c.anims.length) ∧ (∀ code, (∀ e ∈ c.selList, e.1 ≠ code) → c.select code = c.select 0) ∧
  1 ≤ c.poll ∧ c.poll < 2 ^ 31

/-- The three rows of a composite and their slots, written out from 41_line_packer.md R155 and R156: slot 0, 1, 2 take
bottom, mid, top, or with `REVERSE` top, mid, bottom. -/
def compositeRows (s : State) (d : Descriptor) : Slots :=
  let top := d.extract s.cursor.toInt
  let mid := d.extract (s.cursor.toInt + 1)
  let bottom := d.extract (s.cursor.toInt + 2)
  if s.reverse then { s0 := top, s1 := mid, s2 := bottom } else { s0 := bottom, s1 := mid, s2 := top }

/-- A single row feeds all three slots (41_line_packer.md R154). -/
def singleRow (s : State) (d : Descriptor) : Slots :=
  { s0 := d.extract s.cursor.toInt, s1 := d.extract s.cursor.toInt, s2 := d.extract s.cursor.toInt }

/-- `s` after EMIT.ROW or EMIT.BLANK has handed the frame in `m` to the engine and gone to sleep until `wakeAt`
(43_playback_controller.md R197, R200, R206). -/
def handedOver (s : State) (m : Memory) (frame : List Word) (wakeAt : Time) : State :=
  { s with
    buf := m
    engBusy := true
    engIdx := 0
    trace := s.trace ++ [{ time := s.now, base := 0, count := 3 * s.cfg.n, frame := frame }]
    deadline := some wakeAt
    phase := .sleep }

end Sys2Proof.Machine

open Sys2Proof Sys2Proof.Machine

/-! ## Encoding and decode -/

/-- A few words of 30_encoding.md R104 and R106 and what they decode to. -/
def Obligations.SampleWordsDecode : Prop :=
  decodeTableWord 8 0x30 = some .faultMode ∧ decodeTableWord 8 0x08 = some .evtTake ∧
  decodeTableWord 8 0x14 = some .waitHeld ∧ decodeTableWord 8 0x40 = some .emitRow ∧
  decodeTableWord 8 0xC1 = some .wake ∧ decodeTableWord 2 1 = some .packComp ∧ decodeTableWord 2 3 = some .faultPkop

/-- R103, R105: the operation is that of the first matching row, every vector has one, and rows 2 to 12 are pairwise
disjoint. -/
def Obligations.DecodePicksFirstMatchingRow : Prop :=
  (∀ (dv : Byte) (i : Instr), decodeDv dv = some i ↔
    ∃ (k : Nat) (r : DvRow), dvTable[k]? = some r ∧ dv &&& r.mask = r.pattern ∧ r.instr = i ∧
      ∀ (j : Nat) (r' : DvRow), j < k → dvTable[j]? = some r' → dv &&& r'.mask ≠ r'.pattern) ∧
  (∀ dv : Byte, ∃ i, decodeDv dv = some i) ∧
  dvTable.tail.Pairwise (fun r r' => ∀ dv : Byte, ¬(dv &&& r.mask = r.pattern ∧ dv &&& r'.mask = r'.pattern))

/-- Decode and encode agree for every operation and every value of the free pattern letters; a vector with the reserved
`MODE` is FAULT.MODE's alone. -/
def Obligations.DecodeAgreesWithEncode : Prop :=
  ∀ (i : Instr) (nbits w : Nat), decodeTableWord nbits w = some i ↔
    (∃ free, encode i free = some (nbits, w)) ∧ (nbits = 8 → i ≠ .faultMode → w &&& 0x30 ≠ 0x30)

/-- R246: at HEAD the reserved mode comes first, then the pending event, then the mode; in the other phases the event is
not examined. -/
def Obligations.HeadPriority : Prop :=
  (∀ s : State, s.faults = [] → s.phase = .head →
    s.controllerOp = .ok (some
      (if s.mode = .reserved then .faultMode
       else if s.pending = true then .evtTake
       else if s.mode = .run then .runStart
       else if s.mode = .wait then (if s.pressed = true then .waitHeld else .waitRel)
       else .haltPoll))) ∧
  (∀ (s : State) (p : Bool), s.phase ≠ .head → ({ s with pending := p } : State).controllerOp = s.controllerOp)

/-- R102: in SLEEP `REACHED` is 1 exactly when `NOW` is at or after `DEADLINE` modulo `2^64`; in every other phase it is 0
and reads nothing; so in every state that meets the invariant it answers. -/
def Obligations.ReachedIsWrapSafe : Prop :=
  (∀ (s : State) (d : Time), s.phase = .sleep → s.deadline = some d →
    ∃ r, s.reached = .ok r ∧ (r = true ↔ (s.now - d).toNat < 2 ^ 63)) ∧
  (∀ s : State, s.phase ≠ .sleep → s.reached = .ok false) ∧
  (∀ s : State, s.Inv → ∃ r, s.reached = .ok r)

/-! ## Controller operations -/

/-- R244: FAULT.MODE is selected by every vector with `MODE = 11`, and records the vector and nothing else. -/
def Obligations.FaultModeRecordsDv : Prop :=
  (∀ dv : Byte, decodeDv dv = some .faultMode ↔ dv &&& 0x30 = 0x30) ∧
  ∀ (s : State) (dv : Byte), s.decodeVector = .ok dv →
    exec .faultMode s = .next { s with
      faults := if Fault.reservedMode dv ∈ s.faults then s.faults else s.faults ++ [.reservedMode dv] }

/-- R195, R248: EVT.TAKE clears PENDING, enters WAIT and saves nothing. -/
def Obligations.EvtTakeEntersWait : Prop :=
  SelectedBy .evtTake 0xC8 0x08 ∧
  ∀ s : State, exec .evtTake s = .next { s with pending := false, mode := .wait }

/-- R196. -/
def Obligations.RunStartSamplesNow : Prop :=
  SelectedBy .runStart 0xF8 0x00 ∧
  ∀ s : State, exec .runStart s = .next { s with cycleStart := some s.now, phase := .txwRow }

/-- R199. -/
def Obligations.WaitHeldSamplesNow : Prop :=
  SelectedBy .waitHeld 0xFC 0x14 ∧
  ∀ s : State, exec .waitHeld s = .next { s with cycleStart := some s.now, phase := .txwBlank }

/-- R202, R249: WAIT.REL selects again and restarts the cursor at the new animation's start. -/
def Obligations.WaitRelReselectsAndRestarts : Prop :=
  SelectedBy .waitRel 0xFC 0x10 ∧
  ∀ s : State, s.cfg.admitted = true →
    ∃ d, s.cfg.anims[s.cfg.select s.selCode]? = some d ∧
      exec .waitRel s = .next { s with
        anim := s.cfg.select s.selCode
        cursor := if d.multiline then -2 else 0
        mode := .run }

/-- R203. -/
def Obligations.HaltPollSleepsOnePoll : Prop :=
  SelectedBy .haltPoll 0xF8 0x20 ∧
  ∀ s : State, exec .haltPoll s = .next { s with deadline := some (s.now + BitVec.ofNat 64 s.cfg.poll), phase := .sleep }

/-- R204. -/
def Obligations.WakeReturnsToHead : Prop :=
  SelectedBy .wake 0xC1 0xC1 ∧ ∀ s : State, exec .wake s = .next { s with phase := .head }

/-- R198, R201, R205: a hold leaves the state as it is. -/
def Obligations.HoldsChangeNothing : Prop :=
  SelectedBy .holdTxrow 0xC2 0x42 ∧ SelectedBy .holdTxblank 0xC2 0x82 ∧ SelectedBy .holdSleep 0xC1 0xC0 ∧
  ∀ s : State, exec .holdTxrow s = .next s ∧ exec .holdTxblank s = .next s ∧ exec .holdSleep s = .next s

/-- R197 with a single-line animation: the frame of row `EXTRACT(DESC, CURSOR)` is packed and handed over, the cursor
advances, the deadline is one period after the cycle start, and nothing else changes. -/
def Obligations.EmitRowSingleLine : Prop :=
  SelectedBy .emitRow 0xC2 0x40 ∧
  ∀ (s : State) (t0 : Time) (d : Descriptor), s.cfg.admitted = true → s.cfg.anims[s.anim]? = some d →
    d.multiline = false → s.cycleStart = some t0 → s.engBusy = false →
    ∃ (m : Memory) (frame : List Word), HoldsFrame s (singleRow s d) m ∧
      (∀ i, 3 * s.cfg.n ≤ i → m.read i = s.buf.read i) ∧
      (List.range (3 * s.cfg.n)).map m.read = frame.map some ∧
      exec .emitRow s = .next { handedOver s m frame (t0 + d.period.setWidth 64) with
        cursor := (d.advanceCursor s.cursor).1
        mode := if (d.advanceCursor s.cursor).2 then .halt else s.mode }

/-- R197 with a multiline animation: as the single-line form, with the composite of R156. -/
def Obligations.EmitRowMultiline : Prop :=
  ∀ (s : State) (t0 : Time) (d : Descriptor), s.cfg.admitted = true → s.cfg.anims[s.anim]? = some d →
    d.multiline = true → s.cycleStart = some t0 → s.engBusy = false →
    ∃ (m : Memory) (frame : List Word), HoldsFrame s (compositeRows s d) m ∧
      (∀ i, 3 * s.cfg.n ≤ i → m.read i = s.buf.read i) ∧
      (List.range (3 * s.cfg.n)).map m.read = frame.map some ∧
      exec .emitRow s = .next { handedOver s m frame (t0 + d.period.setWidth 64) with
        cursor := (d.advanceCursor s.cursor).1
        mode := if (d.advanceCursor s.cursor).2 then .halt else s.mode }

/-- R200: EMIT.BLANK hands over `3N` zero words and sleeps one POLL from the cycle start. -/
def Obligations.EmitBlankSendsZeros : Prop :=
  SelectedBy .emitBlank 0xC2 0x80 ∧
  ∀ (s : State) (t0 : Time), s.cycleStart = some t0 → s.engBusy = false →
    ∃ m : Memory, (∀ i, m.read i = if i < 3 * s.cfg.n then some 0 else s.buf.read i) ∧
      exec .emitBlank s = .next
        (handedOver s m (List.replicate (3 * s.cfg.n) 0) (t0 + BitVec.ofNat 64 s.cfg.poll))

/-- R194: the common checks, in their order, at every operation that can fail them.
In SLEEP a `DEADLINE` that holds no value is met while the decode vector is assembled, before any operation is picked (the
model's reading, log 21). -/
def Obligations.CommonChecksInOrder : Prop :=
  (∀ s : State, s.cycleStart = none →
    exec .emitRow s = .next (s.raise (.unwrittenRead .cycleStart)) ∧
    exec .emitBlank s = .next (s.raise (.unwrittenRead .cycleStart))) ∧
  (∀ (s : State) (t0 : Time), s.cycleStart = some t0 → s.engBusy = true →
    exec .emitRow s = .next (s.raise (.bufRace s.engIdx)) ∧
    exec .emitBlank s = .next (s.raise (.bufRace s.engIdx))) ∧
  (∀ s : State, s.engBusy = true → s.txStart = .error (.txOverlap s.engIdx)) ∧
  (∀ (s : State) (sets : List Setting) (rest : List Line), s.cfg.admitted = true → s.faults = [] → s.phase = .sleep →
    s.deadline = none → s.script = { sets := sets, agent := .controller } :: rest →
    step s = .next ((({ s with script := rest } : State).applySettings sets).raise (.unwrittenRead .deadline)))

/-! ## Line Packer -/

/-- R154: PACK.SINGLE, code `00`, the code of a single-line animation, writes every word of the buffer from one row and
nothing else. -/
def Obligations.PackSingleWritesTheFrame : Prop :=
  decodeTableWord 2 0 = some .packSingle ∧ (∀ d : Descriptor, d.multiline = false → pkOpOfRow d = 0#2) ∧
  ∀ (s : State) (d : Descriptor), s.cfg.admitted = true → s.cfg.anims[s.anim]? = some d → s.engBusy = false →
    ∃ m : Memory, HoldsFrame s (singleRow s d) m ∧ (∀ i, 3 * s.cfg.n ≤ i → m.read i = s.buf.read i) ∧
      exec .packSingle s = .next { s with buf := m }

/-- R155, R156: PACK.COMP, code `01`, the code of a multiline animation, writes every word of the buffer from three rows,
assigned to the slots by REVERSE, and nothing else. -/
def Obligations.PackCompWritesTheFrame : Prop :=
  decodeTableWord 2 1 = some .packComp ∧ (∀ d : Descriptor, d.multiline = true → pkOpOfRow d = 1#2) ∧
  ∀ (s : State) (d : Descriptor), s.cfg.admitted = true → s.cfg.anims[s.anim]? = some d → s.engBusy = false →
    ∃ m : Memory, HoldsFrame s (compositeRows s d) m ∧ (∀ i, 3 * s.cfg.n ≤ i → m.read i = s.buf.read i) ∧
      exec .packComp s = .next { s with buf := m }

/-- R157: PACK.BLANK, code `10`, writes zero to every word of the buffer and nothing else. -/
def Obligations.PackBlankWritesZeros : Prop :=
  decodeTableWord 2 2 = some .packBlank ∧ pkOpOfBlank = 2#2 ∧
  ∀ s : State, s.engBusy = false →
    ∃ m : Memory, (∀ i, m.read i = if i < 3 * s.cfg.n then some 0 else s.buf.read i) ∧
      exec .packBlank s = .next { s with buf := m }

/-- R160: the reserved code, which no emit issues, is recorded, and nothing else changes.
That a pack run on its own while the engine is busy is a buffer race is the model's choice (log 14): R194 speaks of the
calling step. -/
def Obligations.PackFaultsAreRecorded : Prop :=
  decodeTableWord 2 3 = some .faultPkop ∧ (∀ d : Descriptor, pkOpOfRow d ≠ 3#2) ∧ pkOpOfBlank ≠ 3#2 ∧
  (∀ s : State, exec .faultPkop s = .next (s.raise (.reservedPkop 3#2))) ∧
  (∀ s : State, s.engBusy = true →
    exec .packSingle s = .next (s.raise (.bufRace s.engIdx)) ∧
    exec .packComp s = .next (s.raise (.bufRace s.engIdx)) ∧
    exec .packBlank s = .next (s.raise (.bufRace s.engIdx)))

/-- R159: after any Line Packer operation that answers, every word of the buffer has lane 3 clear. -/
def Obligations.PackedWordsHaveLaneThreeClear : Prop :=
  ∀ (op : BitVec 2) (s t : State), s.pack op = .ok t →
    ∀ i, i < 3 * s.cfg.n → ∃ w, t.buf.read i = some w ∧ w &&& 0x88888888 = 0 ∧
      ∀ k, k < 8 → w.getLsbD (4 * k + 3) = false

/-- R151: both layouts map (position, strip, channel) one to one onto the offsets of a row. -/
def Obligations.RowLayoutIsOneToOne : Prop :=
  (∀ (c : Config) (i s ch : Nat),
    (c.rowLayout = .positionMajor → rowOffset c i s ch = 9 * i + 3 * s + ch) ∧
    (c.rowLayout = .stripMajor → rowOffset c i s ch = 3 * c.n * s + 3 * i + ch)) ∧
  (∀ (c : Config) (i s ch : Nat), i < c.n → s < 3 → ch < 3 → rowOffset c i s ch < 9 * c.n) ∧
  (∀ (c : Config) (o : Nat), o < 9 * c.n → ∃ i s ch, (i < c.n ∧ s < 3 ∧ ch < 3 ∧ rowOffset c i s ch = o) ∧
    ∀ i' s' ch', i' < c.n → s' < 3 → ch' < 3 → rowOffset c i' s' ch' = o → i' = i ∧ s' = s ∧ ch' = ch)

/-! ## Bit Interleaver -/

/-- R131, R132: bit `k` of the byte is bit `4k` of the entry and every other bit is 0; SPREAD shows that entry. -/
def Obligations.SpreadPlacesEachBit : Prop :=
  (∀ (b : Byte) (j : Nat), (spread b).getLsbD j = (decide (j < 32) && decide (j % 4 = 0) && b.getLsbD (j / 4))) ∧
  (∀ b : Byte, spread b &&& 0xEEEEEEEE = 0) ∧
  ∀ (b : Byte) (s : State), exec (.spread b) s = .next { s with combOut := some (.word (spread b)) }

/-- R133, R134: bit `4k + s` of the result is bit `k` of lane `s`; INTERLEAVE shows that result. -/
def Obligations.InterleaveGathersEachBit : Prop :=
  (∀ (v : Fin 4 → Byte) (s : Fin 4) (k : Nat), k < 8 →
    (interleave (v 0) (v 1) (v 2) (v 3)).getLsbD (4 * k + s.val) = (v s).getLsbD k) ∧
  ∀ (v0 v1 v2 v3 : Byte) (s : State), exec (.interleave v0 v1 v2 v3) s =
    .next { s with combOut := some (.word (spread v0 ||| (spread v1 <<< 1) ||| (spread v2 <<< 2) ||| (spread v3 <<< 3))) }

/-- R135: lane placement, bit positions kept, strip reordering, independent lanes, injective. -/
def Obligations.InterleaveProperties : Prop :=
  (∀ a b : Byte, interleave a b 0 0 = spread a ||| (spread b <<< 1)) ∧
  (∀ (v v' : Fin 4 → Byte) (k : Nat), k < 8 → (∀ s, (v s).getLsbD k = (v' s).getLsbD k) →
    ∀ s : Fin 4, (interleave (v 0) (v 1) (v 2) (v 3)).getLsbD (4 * k + s.val)
      = (interleave (v' 0) (v' 1) (v' 2) (v' 3)).getLsbD (4 * k + s.val)) ∧
  (∀ (v : Fin 4 → Byte) (p : Equiv.Perm (Fin 4)) (k : Nat) (s : Fin 4), k < 8 →
    (interleave (v (p 0)) (v (p 1)) (v (p 2)) (v (p 3))).getLsbD (4 * k + (p.symm s).val)
      = (interleave (v 0) (v 1) (v 2) (v 3)).getLsbD (4 * k + s.val)) ∧
  (∀ v0 v1 v2 v3 : Byte, interleave v0 v1 v2 v3 =
    interleave v0 0 0 0 ||| interleave 0 v1 0 0 ||| interleave 0 0 v2 0 ||| interleave 0 0 0 v3) ∧
  (∀ v0 v1 v2 v3 u0 u1 u2 u3 : Byte, interleave v0 v1 v2 v3 = interleave u0 u1 u2 u3 →
    v0 = u0 ∧ v1 = u1 ∧ v2 = u2 ∧ v3 = u3)

/-! ## Frame Source -/

/-- R170. -/
def Obligations.LimitDoublesWithMirror : Prop :=
  (∀ (d : Descriptor) (s : State), exec (.limit d) s =
    .next { s with combOut := some (.limit (if d.mirror then 2 * d.height.toNat else d.height.toNat)) }) ∧
  ∀ d : Descriptor, d.height ≠ 0 → 1 ≤ d.limit ∧ d.limit ≤ 2 ^ 17 - 2

/-- R171: the five cases of EXTRACT, in order. -/
def Obligations.ExtractFollowsThePolicy : Prop :=
  ∀ (d : Descriptor) (y : Int) (s : State), d.height ≠ 0 →
    ∃ r, exec (.extract d y) s = .next { s with combOut := some (.row r) } ∧ r = d.extract y ∧
      (y < 0 → r = .blank) ∧
      (0 ≤ y → d.loop = false → (d.limit : Int) ≤ y → r = .blank) ∧
      (0 ≤ y → (d.loop = true ∨ y < d.limit) → d.mirror = true → d.height.toNat ≤ (y % d.limit).toNat →
        r = .row (d.limit - (y % d.limit).toNat - 1)) ∧
      (0 ≤ y → (d.loop = true ∨ y < d.limit) → ¬(d.mirror = true ∧ d.height.toNat ≤ (y % d.limit).toNat) →
        r = .row (y % d.limit).toNat)

/-- R173: a row EXTRACT returns is a row of the animation. -/
def Obligations.ExtractStaysInRange : Prop :=
  ∀ (d : Descriptor) (y : Int) (r : Nat), d.height ≠ 0 → d.extract y = .row r → r < d.height.toNat

/-- R175: periodicity from 0 on and its failure before it, mirror symmetry, bounds. -/
def Obligations.ExtractPeriodMirrorBounds : Prop :=
  (∀ (d : Descriptor) (y : Int), d.height ≠ 0 → d.loop = true → 0 ≤ y → d.extract y = d.extract (y + d.limit)) ∧
  (∀ (d : Descriptor) (y : Int), d.height ≠ 0 → d.loop = true → -(d.limit : Int) ≤ y → y < 0 →
    d.extract y = .blank ∧ ∃ r, d.extract (y + d.limit) = .row r) ∧
  (∀ (d : Descriptor) (k : Nat), d.mirror = true → k < d.height.toNat →
    d.extract ((d.height.toNat : Int) + k) = d.extract ((d.height.toNat : Int) - k - 1)) ∧
  (∀ (d : Descriptor) (y : Int), d.loop = false → ((d.limit : Int) ≤ y ∨ y < 0) → d.extract y = .blank)

/-- R174: ROWBYTE reads 0 of the blank row and the ROM byte of a row. -/
def Obligations.RowbyteReadsTheRow : Prop :=
  (∀ (s : State) (o : Nat), o < 9 * s.cfg.n →
    exec (.rowbyte .blank o) s = .next { s with combOut := some (.byte 0) }) ∧
  (∀ (s : State) (d : Descriptor) (r o : Nat), s.cfg.admitted = true → s.cfg.anims[s.anim]? = some d →
    r < d.height.toNat → o < 9 * s.cfg.n →
    ∃ row b, d.rows[r]? = some row ∧ row[o]? = some b ∧
      exec (.rowbyte (.row r) o) s = .next { s with combOut := some (.byte b) })

/-- R71, R174: an index outside the row space is recorded as F_INDEX_RANGE and nothing else changes.
That the blank row faults at such an offset too is the model's reading (log 16). -/
def Obligations.RowbyteOutOfRangeFaults : Prop :=
  (∀ (s : State) (ref : RowRef) (o : Nat), 9 * s.cfg.n ≤ o →
    exec (.rowbyte ref o) s = .next (s.raise (.indexRange o))) ∧
  (∀ (s : State) (d : Descriptor) (r o : Nat), s.cfg.anims[s.anim]? = some d → o < 9 * s.cfg.n →
    d.height.toNat ≤ r → exec (.rowbyte (.row r) o) s = .next (s.raise (.indexRange r)))

/-! ## Cursor policy and selection -/

/-- R191. -/
def Obligations.StartIsMinusTwoWhenMultiline : Prop :=
  ∀ (d : Descriptor) (s : State), exec (.start d) s =
    .next { s with combOut := some (.cursor (if d.multiline then -2 else 0)) }

/-- R192: advance, wrap to 0, or halt at LIMIT; the incremented cursor never overflows. -/
def Obligations.AdvanceWrapsOrHalts : Prop :=
  ∀ (d : Descriptor) (c : Cursor) (s : State), d.height ≠ 0 → -2 ≤ c.toInt → c.toInt < d.limit →
    (c + 1).toInt = c.toInt + 1 ∧
    d.advanceCursor c = (if c.toInt + 1 < d.limit then (c + 1, false)
      else if d.loop = true then (0, false)
      else (c + 1, true)) ∧
    exec (.advance d c) s = .next { s with
      combOut := some (if c.toInt + 1 < d.limit then .advance (c + 1) false
        else if d.loop = true then .advance 0 false
        else .advance (c + 1) true) }

/-- R193: SELECT shows the mapped animation and nothing else; every code selects an animation of the table, a code the map
lists selects its entry, and a code it does not list selects what code 0 does.
The map as a default and a list whose first entry of a code counts is the model's form (log 19). -/
def Obligations.SelectIsTotalWithDefault : Prop :=
  (∀ (code : Nat) (s : State), exec (.select code) s =
    .next { s with combOut := some (.anim (s.cfg.select code)) }) ∧
  (∀ (c : Config) (code : Nat), c.admitted = true → c.select code < c.anims.length) ∧
  (∀ (c : Config) (code : Nat), (∀ e ∈ c.selList, e.1 ≠ code) → c.select code = c.select 0) ∧
  (∀ (c : Config) (code a : Nat), c.selList.lookup code = some a → code ≠ 0 → c.select code = a) ∧
  (∀ (c : Config) (code a : Nat) (before later : List (Nat × Nat)), c.selList = before ++ (code, a) :: later →
    (∀ e ∈ before, e.1 ≠ code) → code ≠ 0 → c.select code = a) ∧
  (∀ c : Config, c.select 0 = c.selDefault)

/-! ## Events of the other agents -/

/-- R270, R51: RESET under an admitted configuration.
NOW and ENG_IDX are free values, ENG_IDX within `0 .. 3N` (log 7, 8); ENG_BUSY = 0 is the launch premise (log 9). -/
def Obligations.ResetInitialisesEveryRegister : Prop :=
  ∀ s : State, s.cfg.admitted = true →
    ∃ (d : Descriptor) (now : Time) (idx : Nat), s.cfg.anims[s.cfg.select s.selCode]? = some d ∧ idx ≤ 3 * s.cfg.n ∧
      exec .reset s = .next { s with
        pending := false
        reverse := s.orient
        anim := s.cfg.select s.selCode
        cursor := if d.multiline then -2 else 0
        mode := .run
        phase := .head
        cycleStart := none
        deadline := none
        buf := []
        faults := []
        engBusy := false
        engIdx := idx
        sent := []
        now := now
        draws := s.draws + 1 }

/-- R9: a configuration that fails a check has no run; one that passes every check is admitted.
That `SEL_WIDTH = 0` and a `TICK` of no duration are refused too is the model's choice (log 27), from the entry of R8 and
from 92_eei_decisions.md, "Parameters left OPEN". -/
def Obligations.BadConfigurationIsRefused : Prop :=
  (∀ s : State, (s.cfg.n = 0 ∨ s.cfg.anims = [] ∨ (∃ d ∈ s.cfg.anims, d.height = 0 ∨ 2 ^ 31 ≤ d.period.toNat
      ∨ d.rows.length ≠ d.height.toNat ∨ ∃ row ∈ d.rows, row.length ≠ 9 * s.cfg.n)
      ∨ (∃ code, s.cfg.anims.length ≤ s.cfg.select code) ∨ s.cfg.poll = 0 ∨ 2 ^ 31 ≤ s.cfg.poll
      ∨ s.cfg.selWidth = 0 ∨ s.cfg.tick = 0) →
    step s = .refused .configNotAdmitted ∧ exec .reset s = .refused .configNotAdmitted) ∧
  (∀ c : Config, c.admitted = true ↔ PassesChecks c ∧ 1 ≤ c.selWidth ∧ 1 ≤ c.tick)

/-- R210: BTN.EDGE sets PENDING and nothing else, so two edges are one. -/
def Obligations.BtnEdgeSetsPending : Prop :=
  ∀ s : State, exec .btnEdge s = .next { s with pending := true }

/-- R211: TICK advances NOW by one modulo `2^64` and nothing else. -/
def Obligations.TickAdvancesNow : Prop :=
  ∀ s : State, exec .tick s = .next { s with now := BitVec.ofNat 64 ((s.now.toNat + 1) % 2 ^ 64) }

/-- R207, R209: ENG.READ sends the nibbles of the next word, nibble 7 first. -/
def Obligations.EngReadSendsTheNextWord : Prop :=
  ∀ (s : State) (w : Word), s.engBusy = true → s.engIdx < 3 * s.cfg.n → s.buf.read s.engIdx = some w →
    exec .engRead s = .next { s with
      engIdx := s.engIdx + 1
      sent := s.sent ++ [w.extractLsb' 28 4, w.extractLsb' 24 4, w.extractLsb' 20 4, w.extractLsb' 16 4,
        w.extractLsb' 12 4, w.extractLsb' 8 4, w.extractLsb' 4 4, w.extractLsb' 0 4] }

/-- R208, R214: ENG.DONE latches what was sent and frees the engine. -/
def Obligations.EngDoneLatchesAndFrees : Prop :=
  ∀ s : State, s.engBusy = true → s.engIdx = 3 * s.cfg.n →
    exec .engDone s = .next { s with latched := s.sent, sent := [], engBusy := false }

/-- R41, R110, R207: an engine event whose condition does not hold is no step (the model's choice, log 15), and an enabled
read of a word that holds no value records F_UNWRITTEN_READ. -/
def Obligations.EngineEventsNeedTheirCondition : Prop :=
  (∀ s : State, ¬(s.engBusy = true ∧ s.engIdx < 3 * s.cfg.n) → exec .engRead s = .next s) ∧
  (∀ s : State, ¬(s.engBusy = true ∧ s.engIdx = 3 * s.cfg.n) → exec .engDone s = .next s) ∧
  (∀ s : State, s.engBusy = true → s.engIdx < 3 * s.cfg.n → s.buf.read s.engIdx = none →
    exec .engRead s = .next (s.raise (.unwrittenRead (.buf s.engIdx))))

/-- R209: on the wire strip `s` receives its byte most significant bit first. -/
def Obligations.StripsReceiveMsbFirst : Prop :=
  ∀ (v : Fin 4 → Byte) (s : Fin 4) (k : Nat), k < 8 →
    ((serialise (interleave (v 0) (v 1) (v 2) (v 3)))[k]?.map fun nib => nib.getLsbD s.val) = some ((v s).getLsbD (7 - k))

/-! ## The step -/

/-- R112: the settings before a line change the input they name and nothing else.
A code wider than the input keeps its low `SEL_WIDTH` bits (the model's choice, log 12). -/
def Obligations.SettingsDriveTheInputs : Prop :=
  ∀ s : State, s.applySettings [] = s ∧
    ∀ rest : List Setting,
      (∀ b, s.applySettings (.btnN b :: rest) = ({ s with btnN := b } : State).applySettings rest) ∧
      (∀ c, c < 2 ^ s.cfg.selWidth →
        s.applySettings (.selCode c :: rest) = ({ s with selCode := c } : State).applySettings rest) ∧
      (∀ b, s.applySettings (.orient b :: rest) = ({ s with orient := b } : State).applySettings rest)

/-- A step runs the decoded operation: on the controller's line, the operation the decode vector selects, on the state the
line's settings leave; and the decode vector is R101's, field by field, wherever `REACHED` answers. -/
def Obligations.StepRunsTheDecodedOperation : Prop :=
  (∀ (s : State) (t : Bool), s.reached = .ok t → ∃ dv, s.decodeVector = .ok dv ∧ VectorLayout s t dv) ∧
  ∀ (s : State) (sets : List Setting) (rest : List Line) (dv : Byte) (i : Instr),
    s.cfg.admitted = true → s.script = { sets := sets, agent := .controller } :: rest → s.faults = [] →
    (({ s with script := rest } : State).applySettings sets).decodeVector = .ok dv → decodeDv dv = some i →
    step s = exec i (({ s with script := rest } : State).applySettings sets)

/-- R110: on the line of another agent a step runs that agent's event; the engine's is the one whose condition holds. -/
def Obligations.StepRunsTheAgentsEvent : Prop :=
  ∀ (s : State) (sets : List Setting) (a : Agent) (rest : List Line) (u : State),
    s.cfg.admitted = true → s.script = { sets := sets, agent := a } :: rest →
    u = ({ s with script := rest } : State).applySettings sets →
    (a = .buttonHandler → step s = exec .btnEdge u) ∧ (a = .timeBase → step s = exec .tick u) ∧
    (a = .environment → step s = exec .reset u) ∧
    (a = .engine → u.engBusy = true → u.engIdx < 3 * u.cfg.n → step s = exec .engRead u) ∧
    (a = .engine → u.engBusy = true → u.engIdx = 3 * u.cfg.n → step s = exec .engDone u) ∧
    (a = .engine → u.engBusy = false → step s = .next u)

/-- An empty script is followed by a free line: the order of the agents is open (the model's form of it, log 1). -/
def Obligations.EmptyScriptTakesAFreeLine : Prop :=
  ∀ s : State, s.script = [] →
    ∃ line : Line, step s = step { s with script := [line], draws := s.draws + 1 }

/-- R240: once a fault is recorded the controller has no further step, while the other agents may still step. -/
def Obligations.FaultedControllerIsQuiescent : Prop :=
  ∀ (s : State) (sets : List Setting) (rest : List Line), s.cfg.admitted = true → s.faults ≠ [] →
    (s.script = { sets := sets, agent := .controller } :: rest →
      step s = .next (({ s with script := rest } : State).applySettings sets)) ∧
    (s.script = { sets := sets, agent := .timeBase } :: rest →
      ∃ t, step s = .next t ∧ t.now = s.now + 1 ∧ t.faults = s.faults)

/-- R240, R251: an operation other than RESET either leaves the fault set as it was or records one fault and has no other
effect. -/
def Obligations.FaultingOperationHasNoOtherEffect : Prop :=
  ∀ (i : Instr) (s t : State), i ≠ .reset → exec i s = .next t →
    t.faults = s.faults ∨ ∃ f, f ∉ s.faults ∧ t = { s with faults := s.faults ++ [f] }

/-- R31, R32, R33, R35 to R40, R45: every register is written only by the operations its rule lists (the packs run on
their own and RESET beside them). -/
def Obligations.RegistersHaveOnlyTheirWriters : Prop :=
  ∀ (i : Instr) (s t : State), exec i s = .next t → i ≠ .reset →
    (t.mode ≠ s.mode → i = .evtTake ∨ i = .waitRel ∨ i = .emitRow) ∧
    (t.phase ≠ s.phase → i = .runStart ∨ i = .waitHeld ∨ i = .emitRow ∨ i = .emitBlank ∨ i = .haltPoll ∨ i = .wake) ∧
    (t.pending ≠ s.pending → i = .btnEdge ∨ i = .evtTake) ∧
    (t.cursor ≠ s.cursor → i = .emitRow ∨ i = .waitRel) ∧
    (t.anim ≠ s.anim → i = .waitRel) ∧
    t.reverse = s.reverse ∧
    (t.cycleStart ≠ s.cycleStart → i = .runStart ∨ i = .waitHeld) ∧
    (t.deadline ≠ s.deadline → i = .emitRow ∨ i = .emitBlank ∨ i = .haltPoll) ∧
    (t.buf ≠ s.buf → s.engBusy = false ∧
      (i = .emitRow ∨ i = .emitBlank ∨ i = .packSingle ∨ i = .packComp ∨ i = .packBlank)) ∧
    (t.now ≠ s.now → i = .tick) ∧
    (t.engBusy ≠ s.engBusy → i = .emitRow ∨ i = .emitBlank ∨ i = .engDone) ∧
    (t.engIdx ≠ s.engIdx → i = .emitRow ∨ i = .emitBlank ∨ i = .engRead) ∧
    (t.trace ≠ s.trace → i = .emitRow ∨ i = .emitBlank)

/-- R42, R46, R48, R86: no operation writes the ROMs, the parameters or the inputs. -/
def Obligations.RomsAndInputsAreNeverWritten : Prop :=
  ∀ (i : Instr) (s t : State), exec i s = .next t →
    t.cfg = s.cfg ∧ t.btnN = s.btnN ∧ t.selCode = s.selCode ∧ t.orient = s.orient ∧ t.script = s.script

/-- The model's outcomes: every operation answers a next state in every state, but RESET under a configuration that is not
admitted and EXTRACT of a descriptor of height 0, which are refused (R9; log 27).
The next state is not always the operation's own effect: it may be a recorded fault (log 5), and the state unchanged for a
hold or an engine event without its condition (log 15). -/
def Obligations.EveryOperationAnswersOrIsRefused : Prop :=
  (∀ (i : Instr) (s : State), (i = .reset → s.cfg.admitted = true) →
    (∀ (d : Descriptor) (y : Int), i = .extract d y → d.height ≠ 0) → ∃ t, exec i s = .next t) ∧
  (∀ s : State, s.cfg.admitted = false → exec .reset s = .refused .configNotAdmitted) ∧
  (∀ (d : Descriptor) (y : Int) (s : State), d.height = 0 → exec (.extract d y) s = .refused .configNotAdmitted)

/-! ## Invariants -/

/-- The reset state is what a RESET event makes of it, its free values apart (the values of `State.reset` that the spec
leaves open are the model's, log 3, 7, 8, 10). -/
def Obligations.ResetStateIsAResetEvent : Prop :=
  ∃ (now : Time) (idx : Nat), exec .reset State.reset = .next { State.reset with now := now, engIdx := idx, draws := 1 }

/-- The invariant holds at reset. -/
def Obligations.ResetSatisfiesInvariant : Prop := State.reset.Inv ∧ State.reset.LatchOk ∧ State.reset.TraceOk

/-- R213, R215, R243: from a state that meets the invariant every step, of whichever agent, answers a next state that meets
it; so no fault is reachable and a run never ends. -/
def Obligations.StepKeepsInvariant : Prop :=
  ∀ s : State, s.Inv → ∃ t, step s = .next t ∧ t.Inv

/-- R213: the transition table of the controller, row by row, with the operation it runs. -/
def Obligations.ControllerFollowsTheTransitionTable : Prop :=
  ∀ s : State, s.Inv → ∃ (i : Instr) (t : State), s.controllerOp = .ok (some i) ∧ exec i s = .next t ∧
    (s.phase = .head → s.pending = true → i = .evtTake ∧ t.mode = .wait ∧ t.phase = .head) ∧
    (s.phase = .head → s.pending = false → s.mode = .run → i = .runStart ∧ t.mode = .run ∧ t.phase = .txwRow) ∧
    (s.phase = .txwRow → s.engBusy = false → i = .emitRow ∧ t.phase = .sleep ∧ ∃ d, s.cfg.anims[s.anim]? = some d ∧
      t.mode = if d.loop = false ∧ (d.limit : Int) ≤ s.cursor.toInt + 1 then .halt else .run) ∧
    (s.phase = .head → s.pending = false → s.mode = .wait → s.btnN = false →
      i = .waitHeld ∧ t.mode = .wait ∧ t.phase = .txwBlank) ∧
    (s.phase = .txwBlank → s.engBusy = false → i = .emitBlank ∧ t.mode = .wait ∧ t.phase = .sleep) ∧
    (s.phase = .head → s.pending = false → s.mode = .wait → s.btnN = true →
      i = .waitRel ∧ t.mode = .run ∧ t.phase = .head) ∧
    (s.phase = .head → s.pending = false → s.mode = .halt → i = .haltPoll ∧ t.mode = .halt ∧ t.phase = .sleep) ∧
    (s.phase = .sleep → s.reached = .ok true → i = .wake ∧ t.mode = s.mode ∧ t.phase = .head) ∧
    (s.phase = .txwRow → s.engBusy = true → i = .holdTxrow ∧ t = s) ∧
    (s.phase = .txwBlank → s.engBusy = true → i = .holdTxblank ∧ t = s) ∧
    (s.phase = .sleep → s.reached = .ok false → i = .holdSleep ∧ t = s)

/-- R83, R214, R274: every frame the engine sends and the LEDs show is exactly the frame of the TxStart that started it. -/
def Obligations.FramesAreNeverTorn : Prop :=
  ∀ s t : State, s.HandoffOk → s.LatchOk → s.TraceOk → step s = .next t → t.HandoffOk ∧ t.LatchOk ∧ t.TraceOk

/-- The buffer keeps its canonical form under every step, and no word outside it is ever listed. -/
def Obligations.StepKeepsBufferCanonical : Prop :=
  ∀ s t : State, s.buf.wf s.cfg.bufWords = true → step s = .next t →
    t.buf.wf t.cfg.bufWords = true ∧ ∀ i, 3 * t.cfg.n ≤ i → t.buf.read i = none

/-! ## Runs of a fixed number of steps -/

/-- R113, R207, R208: DRAIN sends the whole frame, latches it and frees the engine, whatever else the state holds. -/
def Obligations.DrainLatchesTheFrame : Prop :=
  ∀ (s : State) (frame : List Word) (rest : List Line), s.cfg.admitted = true → s.engBusy = true → s.engIdx = 0 →
    s.sent = [] → (List.range (3 * s.cfg.n)).map s.buf.read = frame.map some →
    s.script = drainLines (3 * s.cfg.n) ++ rest →
    Host.Core.run Sys2Proof.core (3 * s.cfg.n + 1) s = .next { s with
      script := rest
      engIdx := 3 * s.cfg.n
      engBusy := false
      latched := serialiseFrame frame }

/-- R102, R205, R212, R241: a sleep of fewer than `2^63` ticks holds until the tick that brings NOW to DEADLINE, and then
WAKE is selected. -/
def Obligations.SleepEndsExactlyAtDeadline : Prop :=
  ∀ (s : State) (d : Time) (k : Nat) (rest : List Line), s.cfg.admitted = true → s.faults = [] → s.phase = .sleep →
    s.mode ≠ .reserved → s.deadline = some d → (d - s.now).toNat < 2 ^ 63 → k ≤ (d - s.now).toNat →
    s.script = ticks k ++ rest →
    ∃ t, Host.Core.run Sys2Proof.core k s = .next t ∧
      t = { s with now := s.now + BitVec.ofNat 64 k, script := rest } ∧
      State.controllerOp t = .ok (some (if k = (d - s.now).toNat then .wake else .holdSleep))
end

