-- ==== Sys2Proof/Laws/Config.lean ====
section
/-! SUPPORT. What an admitted configuration says. -/
namespace Sys2Proof

/-- The checks on a descriptor, as a proposition (00_scope.md R9). -/
theorem Descriptor.wf_iff {c : Config} {d : Descriptor} : d.wf c = true ↔
    d.height ≠ 0#16 ∧ d.period.toNat < 2 ^ 31 ∧ d.rows.length = d.height.toNat ∧
      ∀ row ∈ d.rows, row.length = c.rowBytes := by
  simp only [Descriptor.wf, Bool.and_eq_true, decide_eq_true_eq, List.all_eq_true, and_assoc]

/-- The checks on a configuration, as a proposition (00_scope.md R9). -/
theorem Config.admitted_iff {c : Config} : c.admitted = true ↔
    1 ≤ c.n ∧ 1 ≤ c.anims.length ∧ (∀ d ∈ c.anims, d.wf c = true) ∧ 1 ≤ c.selWidth ∧ c.selDefault < c.anims.length ∧
      (∀ e ∈ c.selList, c.select e.1 < c.anims.length) ∧ 1 ≤ c.tick ∧ 1 ≤ c.poll ∧ c.poll < 2 ^ 31 := by
  simp only [Config.admitted, Config.nanim, Bool.and_eq_true, decide_eq_true_eq, List.all_eq_true, and_assoc]

/-- An animation of an admitted configuration is well formed. -/
theorem Config.wf_of_getElem? {c : Config} (h : c.admitted = true) {a : Nat} {d : Descriptor}
    (hd : c.anims[a]? = some d) : d.wf c = true :=
  (Config.admitted_iff.1 h).2.2.1 d (List.mem_of_getElem? hd)

/-- A code that the map does not list selects the default (43_playback_controller.md R193). -/
theorem Config.select_of_lookup_none {c : Config} {code : Nat} (h : c.selList.lookup code = none) :
    c.select code = c.selDefault := by
  unfold Config.select; rw [h]; split <;> rfl

/-- Under an admitted configuration every code selects an animation of the table (43_playback_controller.md R193). -/
theorem Config.select_lt {c : Config} (h : c.admitted = true) (code : Nat) : c.select code < c.anims.length := by
  obtain ⟨_, _, _, _, hdef, hlist, _⟩ := Config.admitted_iff.1 h
  cases hl : c.selList.lookup code with
  | none => rw [Config.select_of_lookup_none hl]; exact hdef
  | some a =>
    obtain ⟨_, _, hsplit, _⟩ := List.lookup_eq_some_iff.1 hl
    exact hlist (code, a) (by rw [hsplit]; simp)

/-- A height other than 0 is positive. -/
theorem Descriptor.height_pos {d : Descriptor} (h : d.height ≠ 0#16) : 0 < d.height.toNat := by
  rcases Nat.eq_zero_or_pos d.height.toNat with h0 | h0
  · exact absurd (BitVec.eq_of_toNat_eq (by simpa using h0)) h
  · exact h0

/-- LIMIT of a positive height is positive (42_frame_source.md R170). -/
theorem Descriptor.limit_pos {d : Descriptor} (h : d.height ≠ 0#16) : 0 < d.limit := by
  have := Descriptor.height_pos h
  unfold Descriptor.limit; split <;> omega

end Sys2Proof
end

