-- ==== Sys2Proof/Laws/Memory.lean ====
section
/-! SUPPORT. The laws of the Packed Buffer: read after write, the canonical form, and what the checked accesses, the fill
and the frame read answer. -/
namespace Sys2Proof.Machine

@[simp] theorem Memory.read_nil (i : Nat) : Memory.read [] i = none := rfl

/-- A read after a write: the written index gives the word written, every other index what it gave before. -/
theorem Memory.read_write (m : Memory) (i j : Nat) (w : Word) :
    (Memory.write m i w).read j = if i = j then some w else m.read j := by
  induction m with
  | nil => simp [Memory.write, Memory.read]
  | cons e m ih =>
    obtain ⟨a, v⟩ := e
    simp only [Memory.write]
    split
    · simp only [Memory.read]
    · split
      · subst_vars; simp only [Memory.read]; split <;> rfl
      · simp only [Memory.read, ih]
        split <;> split <;> simp_all

@[simp] theorem Memory.read_write_same (m : Memory) (i : Nat) (w : Word) : (Memory.write m i w).read i = some w := by
  simp [Memory.read_write]

theorem Memory.read_write_other {m : Memory} {i j : Nat} {w : Word} (h : i ≠ j) :
    (Memory.write m i w).read j = m.read j := by
  simp [Memory.read_write, h]

theorem Memory.risesFrom_mono {hi lo lo' : Nat} {m : Memory} (hl : lo' ≤ lo) (h : Memory.risesFrom hi lo m = true) :
    Memory.risesFrom hi lo' m = true := by
  cases m with
  | nil => rfl
  | cons e m =>
    simp only [Memory.risesFrom, Bool.and_eq_true, decide_eq_true_eq] at h ⊢
    exact ⟨⟨by omega, h.1.2⟩, h.2⟩

theorem Memory.risesFrom_write {hi lo : Nat} {m : Memory} {i : Nat} {w : Word} (hlo : lo ≤ i) (hhi : i < hi)
    (h : Memory.risesFrom hi lo m = true) : Memory.risesFrom hi lo (Memory.write m i w) = true := by
  induction m generalizing lo with
  | nil => simp [Memory.write, Memory.risesFrom, hlo, hhi]
  | cons e m ih =>
    obtain ⟨a, v⟩ := e
    simp only [Memory.risesFrom, Bool.and_eq_true, decide_eq_true_eq] at h
    simp only [Memory.write]
    split
    · simp only [Memory.risesFrom, Bool.and_eq_true, decide_eq_true_eq]
      exact ⟨⟨hlo, hhi⟩, ⟨by omega, h.1.2⟩, h.2⟩
    · split
      · subst_vars
        simp only [Memory.risesFrom, Bool.and_eq_true, decide_eq_true_eq]
        exact ⟨h.1, h.2⟩
      · simp only [Memory.risesFrom, Bool.and_eq_true, decide_eq_true_eq]
        exact ⟨h.1, ih (by omega) h.2⟩

/-- A write inside the buffer keeps the canonical form. -/
theorem Memory.wf_write {words : Nat} {m : Memory} {i : Nat} {w : Word} (hi : i < words) (h : m.wf words = true) :
    (Memory.write m i w).wf words = true :=
  Memory.risesFrom_write (Nat.zero_le _) hi h

/-- The empty buffer of reset is in canonical form. -/
@[simp] theorem Memory.wf_nil (words : Nat) : Memory.wf words [] = true := rfl

/-- The canonical form leaves no index outside the buffer listed. -/
theorem Memory.read_eq_none_of_risesFrom {hi lo i : Nat} {m : Memory} (h : Memory.risesFrom hi lo m = true)
    (hi' : i < lo ∨ hi ≤ i) : m.read i = none := by
  induction m generalizing lo with
  | nil => rfl
  | cons e m ih =>
    obtain ⟨a, v⟩ := e
    simp only [Memory.risesFrom, Bool.and_eq_true, decide_eq_true_eq] at h
    have : a ≠ i := by omega
    simp only [Memory.read, this, if_false]
    exact ih h.2 (by omega)

/-- Two canonical buffers that read alike are equal. -/
theorem Memory.ext_of_risesFrom {hi lo : Nat} {m m' : Memory} (h : Memory.risesFrom hi lo m = true)
    (h' : Memory.risesFrom hi lo m' = true) (hr : ∀ i, m.read i = m'.read i) : m = m' := by
  induction m generalizing lo m' with
  | nil =>
    cases m' with
    | nil => rfl
    | cons e m' => have := hr e.1; simp [Memory.read] at this
  | cons e m ih =>
    cases m' with
    | nil => have := hr e.1; simp [Memory.read] at this
    | cons e' m' =>
      obtain ⟨a, v⟩ := e
      obtain ⟨a', v'⟩ := e'
      simp only [Memory.risesFrom, Bool.and_eq_true, decide_eq_true_eq] at h h'
      have haa : a = a' := by
        by_contra hne
        rcases Nat.lt_or_gt_of_ne hne with hlt | hgt
        · have := hr a
          rw [show Memory.read ((a', v') :: m') a = none from
            Memory.read_eq_none_of_risesFrom (hi := hi) (lo := a')
              (by simp [Memory.risesFrom, h'.1.2, h'.2]) (Or.inl hlt)] at this
          simp [Memory.read] at this
        · have := hr a'
          rw [show Memory.read ((a, v) :: m) a' = none from
            Memory.read_eq_none_of_risesFrom (hi := hi) (lo := a)
              (by simp [Memory.risesFrom, h.1.2, h.2]) (Or.inl hgt)] at this
          simp [Memory.read] at this
      subst haa
      have hv : v = v' := by have := hr a; simpa [Memory.read] using this
      subst hv
      have := ih h.2 h'.2 (fun i => by
        by_cases hai : a = i
        · subst hai
          rw [Memory.read_eq_none_of_risesFrom h.2 (Or.inl (Nat.lt_succ_self _)),
            Memory.read_eq_none_of_risesFrom h'.2 (Or.inl (Nat.lt_succ_self _))]
        · simpa [Memory.read, hai] using hr i)
      rw [this]

/-- What a checked store answers. -/
theorem Memory.store_ok {words : Nat} {m m' : Memory} {i : Nat} {w : Word} :
    m.store words i w = .ok m' ↔ i < words ∧ m' = Memory.write m i w := by
  unfold Memory.store; split <;> simp_all [eq_comm]

/-- What a checked load answers. -/
theorem Memory.load_ok {words : Nat} {m : Memory} {i : Nat} {w : Word} :
    m.load words i = .ok w ↔ i < words ∧ m.read i = some w := by
  unfold Memory.load
  split
  · split <;> simp_all
  · simp_all

/-- A fill whose words are all there answers a buffer that reads as those words in its range and as before outside it,
and it keeps the canonical form. -/
theorem Memory.fill_spec {words : Nat} {word : Nat → Except Fault Word} {g : Nat → Word} {k count : Nat} {m : Memory}
    (hg : ∀ i, k ≤ i → i < k + count → word i = .ok (g i)) (hb : k + count ≤ words) :
    ∃ m', Memory.fill words word k count m = .ok m'
      ∧ (∀ i, m'.read i = if k ≤ i ∧ i < k + count then some (g i) else m.read i)
      ∧ (m.wf words = true → m'.wf words = true) := by
  induction count generalizing k m with
  | zero => exact ⟨m, rfl, fun i => by rw [if_neg (by omega)], id⟩
  | succ count ih =>
    obtain ⟨m', h1, h2, h3⟩ := ih (k := k + 1) (m := Memory.write m k (g k)) (fun i hi hi' => hg i (by omega) (by omega)) (by omega)
    refine ⟨m', ?_, fun i => ?_, fun hwf => h3 (Memory.wf_write (by omega) hwf)⟩
    · have hs : m.store words k (g k) = .ok (Memory.write m k (g k)) := Memory.store_ok.2 ⟨by omega, rfl⟩
      simp only [Memory.fill, hg k (Nat.le_refl _) (by omega), bind, Except.bind, hs]
      exact h1
    · rw [h2, Memory.read_write]
      by_cases hk : k = i
      · subst hk; rw [if_neg (by omega), if_pos rfl, if_pos (by omega)]
      · rw [if_neg hk]
        by_cases hr : k + 1 ≤ i ∧ i < k + 1 + count
        · rw [if_pos hr, if_pos (by omega)]
        · rw [if_neg hr, if_neg (by omega)]

/-- What a fill that succeeds has done. -/
theorem Memory.fill_ok {words : Nat} {word : Nat → Except Fault Word} {k count : Nat} {m m' : Memory}
    (h : Memory.fill words word k count m = .ok m') :
    (∀ i, k ≤ i → i < k + count → ∃ w, word i = .ok w ∧ m'.read i = some w)
      ∧ (∀ i, ¬(k ≤ i ∧ i < k + count) → m'.read i = m.read i)
      ∧ (m.wf words = true → m'.wf words = true) := by
  induction count generalizing k m with
  | zero =>
    simp only [Memory.fill, Except.ok.injEq] at h
    subst h
    exact ⟨fun i hi hi' => absurd hi' (by omega), fun _ _ => rfl, id⟩
  | succ count ih =>
    simp only [Memory.fill, bind, Except.bind] at h
    split at h
    · cases h
    · rename_i w hw
      split at h
      · cases h
      · rename_i m1 hm1
        obtain ⟨hlt, rfl⟩ := Memory.store_ok.1 hm1
        obtain ⟨h1, h2, h3⟩ := ih h
        refine ⟨fun i hi hi' => ?_, fun i hi => ?_, fun hwf => h3 (Memory.wf_write hlt hwf)⟩
        · by_cases hk : k = i
          · subst hk
            exact ⟨w, hw, by rw [h2 k (by omega)]; simp⟩
          · exact h1 i (by omega) (by omega)
        · rw [h2 i (by omega), Memory.read_write_other (by omega)]

/-- What the frame read answers: the words of the range, all of which hold a value. -/
theorem Memory.loadList_ok {words : Nat} {m : Memory} {k count : Nat} {ws : List Word} :
    m.loadList words k count = .ok ws ↔
      (0 < count → k + count ≤ words) ∧ (List.range' k count).map m.read = ws.map some := by
  induction count generalizing k ws with
  | zero => simp [Memory.loadList]
  | succ count ih =>
    simp only [Memory.loadList, bind, Except.bind, List.range'_succ, List.map_cons]
    constructor
    · intro h
      split at h
      · cases h
      · rename_i w hw
        split at h
        · cases h
        · rename_i ws' hws'
          cases h
          obtain ⟨h1, h2⟩ := ih.1 hws'
          obtain ⟨h3, h4⟩ := Memory.load_ok.1 hw
          refine ⟨fun _ => by rcases Nat.eq_zero_or_pos count with rfl | hc <;> omega, ?_⟩
          simp [h4, h2]
    · rintro ⟨h1, h2⟩
      cases ws with
      | nil => simp at h2
      | cons w ws =>
        simp only [List.map_cons, List.cons.injEq] at h2
        rw [show m.load words k = .ok w from Memory.load_ok.2 ⟨by omega, h2.1⟩]
        simp only []
        rw [ih.2 ⟨fun _ => by omega, h2.2⟩]

end Sys2Proof.Machine
end

