-- ==== Sys2Proof/Laws/State.lean ====
section
/-! SUPPORT. The fields of the state after each named update: one lemma per field, true by unfolding. -/
namespace Sys2Proof.Machine

section Raise
variable (s : State) (f : Fault)
@[simp] theorem raise_cfg : (s.raise f).cfg = s.cfg := rfl
@[simp] theorem raise_mode : (s.raise f).mode = s.mode := rfl
@[simp] theorem raise_phase : (s.raise f).phase = s.phase := rfl
@[simp] theorem raise_pending : (s.raise f).pending = s.pending := rfl
@[simp] theorem raise_cursor : (s.raise f).cursor = s.cursor := rfl
@[simp] theorem raise_anim : (s.raise f).anim = s.anim := rfl
@[simp] theorem raise_reverse : (s.raise f).reverse = s.reverse := rfl
@[simp] theorem raise_cycleStart : (s.raise f).cycleStart = s.cycleStart := rfl
@[simp] theorem raise_deadline : (s.raise f).deadline = s.deadline := rfl
@[simp] theorem raise_buf : (s.raise f).buf = s.buf := rfl
@[simp] theorem raise_btnN : (s.raise f).btnN = s.btnN := rfl
@[simp] theorem raise_selCode : (s.raise f).selCode = s.selCode := rfl
@[simp] theorem raise_orient : (s.raise f).orient = s.orient := rfl
@[simp] theorem raise_now : (s.raise f).now = s.now := rfl
@[simp] theorem raise_engBusy : (s.raise f).engBusy = s.engBusy := rfl
@[simp] theorem raise_engIdx : (s.raise f).engIdx = s.engIdx := rfl
@[simp] theorem raise_sent : (s.raise f).sent = s.sent := rfl
@[simp] theorem raise_latched : (s.raise f).latched = s.latched := rfl
@[simp] theorem raise_trace : (s.raise f).trace = s.trace := rfl
@[simp] theorem raise_combOut : (s.raise f).combOut = s.combOut := rfl
@[simp] theorem raise_script : (s.raise f).script = s.script := rfl
@[simp] theorem raise_draws : (s.raise f).draws = s.draws := rfl
theorem raise_faults : (s.raise f).faults = if f ∈ s.faults then s.faults else s.faults ++ [f] := rfl

/-- A raised fault is in the fault set. -/
theorem mem_raise_faults : f ∈ (s.raise f).faults := by
  rw [raise_faults]; split <;> simp_all

/-- No fault leaves the fault set when another is raised (60_exceptions.md R240). -/
theorem raise_keeps_faults {g : Fault} (h : g ∈ s.faults) : g ∈ (s.raise f).faults := by
  rw [raise_faults]; split <;> simp_all

/-- Raising keeps the fault set free of repeats. -/
theorem raise_faults_nodup (h : s.faults.Nodup) : (s.raise f).faults.Nodup := by
  rw [raise_faults]; split
  · exact h
  · rename_i hf
    rw [List.nodup_append]
    exact ⟨h, by simp, by intro a ha b hb; rw [List.mem_singleton] at hb; rintro rfl; exact hf (hb ▸ ha)⟩
end Raise

section Settings
variable (s : State) (x : Setting) (xs : List Setting)

/-- A setting changes the three inputs and nothing else. -/
theorem applySetting_eq : ∃ b c o, s.applySetting x = { s with btnN := b, selCode := c, orient := o } := by
  cases x <;> exact ⟨_, _, _, rfl⟩

/-- The settings before a line change the three inputs and nothing else. -/
theorem applySettings_eq : ∃ b c o, s.applySettings xs = { s with btnN := b, selCode := c, orient := o } := by
  induction xs generalizing s with
  | nil => exact ⟨_, _, _, rfl⟩
  | cons x xs ih =>
    obtain ⟨b, c, o, hx⟩ := applySetting_eq s x
    obtain ⟨b', c', o', h⟩ := ih (s.applySetting x)
    refine ⟨b', c', o', ?_⟩
    rw [show s.applySettings (x :: xs) = (s.applySetting x).applySettings xs from rfl, h, hx]

@[simp] theorem applySettings_nil : s.applySettings [] = s := rfl
@[simp] theorem applySettings_cfg : (s.applySettings xs).cfg = s.cfg := by
  obtain ⟨_, _, _, h⟩ := applySettings_eq s xs; rw [h]
@[simp] theorem applySettings_mode : (s.applySettings xs).mode = s.mode := by
  obtain ⟨_, _, _, h⟩ := applySettings_eq s xs; rw [h]
@[simp] theorem applySettings_phase : (s.applySettings xs).phase = s.phase := by
  obtain ⟨_, _, _, h⟩ := applySettings_eq s xs; rw [h]
@[simp] theorem applySettings_pending : (s.applySettings xs).pending = s.pending := by
  obtain ⟨_, _, _, h⟩ := applySettings_eq s xs; rw [h]
@[simp] theorem applySettings_cursor : (s.applySettings xs).cursor = s.cursor := by
  obtain ⟨_, _, _, h⟩ := applySettings_eq s xs; rw [h]
@[simp] theorem applySettings_anim : (s.applySettings xs).anim = s.anim := by
  obtain ⟨_, _, _, h⟩ := applySettings_eq s xs; rw [h]
@[simp] theorem applySettings_reverse : (s.applySettings xs).reverse = s.reverse := by
  obtain ⟨_, _, _, h⟩ := applySettings_eq s xs; rw [h]
@[simp] theorem applySettings_cycleStart : (s.applySettings xs).cycleStart = s.cycleStart := by
  obtain ⟨_, _, _, h⟩ := applySettings_eq s xs; rw [h]
@[simp] theorem applySettings_deadline : (s.applySettings xs).deadline = s.deadline := by
  obtain ⟨_, _, _, h⟩ := applySettings_eq s xs; rw [h]
@[simp] theorem applySettings_buf : (s.applySettings xs).buf = s.buf := by
  obtain ⟨_, _, _, h⟩ := applySettings_eq s xs; rw [h]
@[simp] theorem applySettings_faults : (s.applySettings xs).faults = s.faults := by
  obtain ⟨_, _, _, h⟩ := applySettings_eq s xs; rw [h]
@[simp] theorem applySettings_now : (s.applySettings xs).now = s.now := by
  obtain ⟨_, _, _, h⟩ := applySettings_eq s xs; rw [h]
@[simp] theorem applySettings_engBusy : (s.applySettings xs).engBusy = s.engBusy := by
  obtain ⟨_, _, _, h⟩ := applySettings_eq s xs; rw [h]
@[simp] theorem applySettings_engIdx : (s.applySettings xs).engIdx = s.engIdx := by
  obtain ⟨_, _, _, h⟩ := applySettings_eq s xs; rw [h]
@[simp] theorem applySettings_sent : (s.applySettings xs).sent = s.sent := by
  obtain ⟨_, _, _, h⟩ := applySettings_eq s xs; rw [h]
@[simp] theorem applySettings_latched : (s.applySettings xs).latched = s.latched := by
  obtain ⟨_, _, _, h⟩ := applySettings_eq s xs; rw [h]
@[simp] theorem applySettings_trace : (s.applySettings xs).trace = s.trace := by
  obtain ⟨_, _, _, h⟩ := applySettings_eq s xs; rw [h]
@[simp] theorem applySettings_combOut : (s.applySettings xs).combOut = s.combOut := by
  obtain ⟨_, _, _, h⟩ := applySettings_eq s xs; rw [h]
@[simp] theorem applySettings_script : (s.applySettings xs).script = s.script := by
  obtain ⟨_, _, _, h⟩ := applySettings_eq s xs; rw [h]
@[simp] theorem applySettings_draws : (s.applySettings xs).draws = s.draws := by
  obtain ⟨_, _, _, h⟩ := applySettings_eq s xs; rw [h]

/-- The settings keep the selector code within `SEL_WIDTH` bits. -/
theorem applySettings_selCode_lt (h : s.selCode < 2 ^ s.cfg.selWidth) :
    (s.applySettings xs).selCode < 2 ^ s.cfg.selWidth := by
  induction xs generalizing s with
  | nil => exact h
  | cons x xs ih =>
    have hc : (s.applySetting x).cfg = s.cfg := by
      obtain ⟨_, _, _, h⟩ := applySetting_eq s x; rw [h]
    have : (s.applySetting x).selCode < 2 ^ (s.applySetting x).cfg.selWidth := by
      rw [hc]; cases x with
      | selCode c => exact Nat.mod_lt _ (Nat.two_pow_pos _)
      | btnN _ => exact h
      | orient _ => exact h
    have h2 := ih (s.applySetting x) this
    rwa [hc] at h2
end Settings

section Output
variable (s : State) (v : CombValue)
@[simp] theorem shows_combOut : (s.shows v).combOut = some v := rfl
/-- Showing a combinational value changes nothing else. -/
theorem shows_eq : s.shows v = { s with combOut := some v } := rfl
end Output

end Sys2Proof.Machine
end

