-- ==== Sys2Proof/Laws/Ops.lean ====
section
/-! SUPPORT. One lemma per shared operation that says everything it can do when it answers. -/
namespace Sys2Proof.Machine

/-- A chained computation answers exactly when both parts do. -/
theorem bind_ok {α β : Type} {x : Except Fault α} {f : α → Except Fault β} {b : β} :
    (x >>= f) = .ok b ↔ ∃ a, x = .ok a ∧ f a = .ok b := by
  cases x with
  | ok a =>
    constructor
    · intro h; exact ⟨a, rfl, h⟩
    · rintro ⟨_, h, h'⟩; cases h; exact h'
  | error e =>
    constructor
    · intro h; cases h
    · rintro ⟨_, h, _⟩; cases h

/-- The end of an operation: its effect, or the fault it raised recorded and nothing else changed. -/
theorem settle_next {s t : State} {r : Except Fault State} :
    s.settle r = .next t ↔ r = .ok t ∨ ∃ f, r = .error f ∧ t = s.raise f := by
  cases r with
  | ok u => simp [State.settle]
  | error f => simp [State.settle, eq_comm]

/-- An operation that ends by settling always answers a next state. -/
theorem settle_isNext (s : State) (r : Except Fault State) : ∃ t, s.settle r = .next t := by
  cases r <;> exact ⟨_, rfl⟩

@[simp] theorem settle_ok (s t : State) : s.settle (.ok t) = .next t := rfl
@[simp] theorem settle_error (s : State) (f : Fault) : s.settle (.error f) = .next (s.raise f) := rfl

theorem readCycleStart_ok {s : State} {t : Time} : s.readCycleStart = .ok t ↔ s.cycleStart = some t := by
  unfold State.readCycleStart; split <;> simp_all

theorem readDeadline_ok {s : State} {t : Time} : s.readDeadline = .ok t ↔ s.deadline = some t := by
  unfold State.readDeadline; split <;> simp_all

theorem checkBufFree_ok {s : State} {u : Unit} : s.checkBufFree = .ok u ↔ s.engBusy = false := by
  unfold State.checkBufFree; split <;> simp_all

/-- TX_START answers exactly when the engine is idle and every word of the buffer holds a value. -/
theorem txStart_ok {s t : State} : s.txStart = .ok t ↔ s.engBusy = false ∧ ∃ frame,
    (List.range s.cfg.bufWords).map s.buf.read = frame.map some ∧
    t = { s with
      engBusy := true
      engIdx := 0
      trace := s.trace ++ [{ time := s.now, base := 0, count := s.cfg.bufWords, frame := frame }] } := by
  unfold State.txStart
  split
  · rename_i h; simp [h]
  · rename_i h
    rw [bind_ok]
    simp only [Memory.loadList_ok, List.range_eq_range', Except.ok.injEq]
    constructor
    · rintro ⟨frame, ⟨_, h2⟩, rfl⟩; exact ⟨by simpa using h, frame, h2, rfl⟩
    · rintro ⟨_, frame, h2, rfl⟩; exact ⟨frame, ⟨fun _ => by omega, h2⟩, rfl⟩

theorem startOf_ok {s : State} {a : Nat} {c : Cursor} :
    s.startOf a = .ok c ↔ ∃ d, s.cfg.anims[a]? = some d ∧ c = BitVec.ofInt 32 d.startCursor := by
  unfold State.startOf
  cases s.cfg.anims[a]? with
  | none => simp
  | some d => simp [eq_comm]

theorem leaveWait_ok {s t : State} : s.leaveWait = .ok t ↔
    ∃ d, s.cfg.anims[s.cfg.select s.selCode]? = some d ∧
      t = { s with anim := s.cfg.select s.selCode, cursor := BitVec.ofInt 32 d.startCursor, mode := .run } := by
  simp only [State.leaveWait, bind_ok, startOf_ok, Except.ok.injEq]
  constructor
  · rintro ⟨c, ⟨d, hd, rfl⟩, rfl⟩; exact ⟨d, hd, rfl⟩
  · rintro ⟨d, hd, rfl⟩; exact ⟨_, ⟨d, hd, rfl⟩, rfl⟩

theorem resetBlock_ok {s t : State} : s.resetBlock = .ok t ↔
    ∃ d, s.cfg.anims[s.cfg.select s.selCode]? = some d ∧
      t = { s with
        pending := false
        reverse := s.orient
        anim := s.cfg.select s.selCode
        cursor := BitVec.ofInt 32 d.startCursor
        mode := .run
        phase := .head
        cycleStart := none
        deadline := none
        buf := []
        faults := []
        engBusy := false
        engIdx := Config.freeEngIdx s.draws % (s.cfg.bufWords + 1)
        sent := []
        now := Config.freeNow s.draws
        draws := s.draws + 1 } := by
  simp only [State.resetBlock, bind_ok, startOf_ok, Except.ok.injEq]
  constructor
  · rintro ⟨c, ⟨d, hd, rfl⟩, rfl⟩; exact ⟨d, hd, rfl⟩
  · rintro ⟨d, hd, rfl⟩; exact ⟨_, ⟨d, hd, rfl⟩, rfl⟩

theorem desc_ok {s : State} {d : Descriptor} : s.desc = .ok d ↔ s.cfg.anims[s.anim]? = some d := by
  unfold State.desc; split <;> simp_all

/-- A row byte that is there: zero of the blank row, or the byte of the active animation's row. -/
theorem rowByte_ok {s : State} {ref : RowRef} {o : Nat} {b : Byte} : s.rowByte ref o = .ok b ↔
    o < s.cfg.rowBytes ∧
      (ref = .blank ∧ b = 0 ∨
        ∃ r d row, ref = .row r ∧ s.cfg.anims[s.anim]? = some d ∧ r < d.height.toNat ∧ d.rows[r]? = some row
          ∧ row[o]? = some b) := by
  unfold State.rowByte
  split
  · rename_i h; simp; omega
  · rename_i h
    cases ref with
    | blank =>
      constructor
      · intro h2; cases h2; exact ⟨by omega, .inl ⟨rfl, rfl⟩⟩
      · rintro ⟨_, ⟨_, rfl⟩ | ⟨_, _, _, h2, _⟩⟩
        · rfl
        · cases h2
    | row r =>
      simp only [bind_ok, desc_ok]
      constructor
      · rintro ⟨d, hd, h2⟩
        split at h2
        · cases h2
        · split at h2
          · cases h2
          · rename_i row hrow
            split at h2
            · cases h2
            · rename_i b' hb
              cases h2
              exact ⟨by omega, .inr ⟨r, d, row, rfl, hd, by omega, hrow, hb⟩⟩
      · rintro ⟨_, ⟨h0, _⟩ | ⟨r', d, row, h0, hd, hlt, hrow, hb⟩⟩
        · cases h0
        · cases h0
          refine ⟨d, hd, ?_⟩
          rw [if_neg (by omega), hrow]
          simp only [hb]

/-- A packed word is the gather of one byte per slot, with lane 3 zero. -/
theorem packWord_ok {s : State} {sl : Slots} {i j : Nat} {w : Word} : s.packWord sl i j = .ok w ↔
    ∃ v0 v1 v2,
      s.rowByte sl.s0 (rowOffset s.cfg i 0 (channelOfSlot j)) = .ok v0 ∧
      s.rowByte sl.s1 (rowOffset s.cfg i 1 (channelOfSlot j)) = .ok v1 ∧
      s.rowByte sl.s2 (rowOffset s.cfg i 2 (channelOfSlot j)) = .ok v2 ∧ w = interleave v0 v1 v2 0 := by
  unfold State.packWord
  constructor
  · intro h
    obtain ⟨v0, h0, h⟩ := bind_ok.1 h
    obtain ⟨v1, h1, h⟩ := bind_ok.1 h
    obtain ⟨v2, h2, h⟩ := bind_ok.1 h
    cases h
    exact ⟨v0, v1, v2, h0, h1, h2, rfl⟩
  · rintro ⟨v0, v1, v2, h0, h1, h2, rfl⟩
    exact bind_ok.2 ⟨v0, h0, bind_ok.2 ⟨v1, h1, bind_ok.2 ⟨v2, h2, rfl⟩⟩⟩

/-- A pack of three slots writes every word of the buffer and nothing else. -/
theorem packSlots_ok {s t : State} {sl : Slots} (h : s.packSlots sl = .ok t) :
    t = { s with buf := t.buf } ∧
      (∀ i, i < s.cfg.bufWords → ∃ w, s.packWord sl (i / 3) (i % 3) = .ok w ∧ t.buf.read i = some w) ∧
      (∀ i, s.cfg.bufWords ≤ i → t.buf.read i = s.buf.read i) ∧
      (s.buf.wf s.cfg.bufWords = true → t.buf.wf s.cfg.bufWords = true) := by
  simp only [State.packSlots, bind_ok, Except.ok.injEq] at h
  obtain ⟨m, hm, rfl⟩ := h
  obtain ⟨h1, h2, h3⟩ := Memory.fill_ok hm
  exact ⟨rfl, fun i hi => h1 i (Nat.zero_le _) (by omega), fun i hi => h2 i (by omega), h3⟩

/-- A pack of three slots answers when each of its words does. -/
theorem packSlots_isOk {s : State} {sl : Slots}
    (h : ∀ i, i < s.cfg.bufWords → ∃ w, s.packWord sl (i / 3) (i % 3) = .ok w) : ∃ t, s.packSlots sl = .ok t := by
  classical
  obtain ⟨m, hm, _⟩ := Memory.fill_spec (words := s.cfg.bufWords)
    (word := fun k => s.packWord sl (k / 3) (k % 3))
    (g := fun k => if hk : k < s.cfg.bufWords then (h k hk).choose else 0) (k := 0) (count := s.cfg.bufWords)
    (m := s.buf) (fun i _ hi => by
      have hi' : i < s.cfg.bufWords := by omega
      simp only [hi', dif_pos]
      exact (h i hi').choose_spec) (by omega)
  exact ⟨_, bind_ok.2 ⟨m, hm, rfl⟩⟩

/-- The blank fill writes zero to every word of the buffer and nothing else. -/
theorem packZero_spec (s : State) : ∃ m, s.packZero = .ok { s with buf := m } ∧
    (∀ i, m.read i = if i < s.cfg.bufWords then some 0 else s.buf.read i) ∧
    (s.buf.wf s.cfg.bufWords = true → m.wf s.cfg.bufWords = true) := by
  obtain ⟨m, hm, h1, h2⟩ := Memory.fill_spec (words := s.cfg.bufWords) (word := fun _ => .ok 0) (g := fun _ => 0)
    (k := 0) (count := s.cfg.bufWords) (m := s.buf) (fun _ _ _ => rfl) (by omega)
  exact ⟨m, bind_ok.2 ⟨m, hm, rfl⟩, fun i => by rw [h1]; simp, h2⟩

@[simp] theorem pack_single (s : State) : s.pack 0#2 = (do
    let d ← s.desc
    s.packSlots (s.singleSlots d)) := rfl

@[simp] theorem pack_comp (s : State) : s.pack 1#2 = (do
    let d ← s.desc
    s.packSlots (s.compositeSlots d)) := rfl

@[simp] theorem pack_blank (s : State) : s.pack 2#2 = s.packZero := rfl

@[simp] theorem pack_reserved (s : State) : s.pack 3#2 = .error (.reservedPkop 3#2) := rfl

/-- Under every operation code a pack that answers changes the buffer alone, keeps its canonical form and leaves every
index outside it as it was. -/
theorem pack_ok {s t : State} {op : BitVec 2} (h : s.pack op = .ok t) :
    t = { s with buf := t.buf } ∧ (∀ i, s.cfg.bufWords ≤ i → t.buf.read i = s.buf.read i) ∧
      (s.buf.wf s.cfg.bufWords = true → t.buf.wf s.cfg.bufWords = true) := by
  have hop : op = 0#2 ∨ op = 1#2 ∨ op = 2#2 ∨ op = 3#2 := by clear h; revert op; decide
  rcases hop with rfl | rfl | rfl | rfl
  · rw [pack_single, bind_ok] at h
    obtain ⟨d, -, h⟩ := h
    exact ⟨(packSlots_ok h).1, (packSlots_ok h).2.2⟩
  · rw [pack_comp, bind_ok] at h
    obtain ⟨d, -, h⟩ := h
    exact ⟨(packSlots_ok h).1, (packSlots_ok h).2.2⟩
  · obtain ⟨m, hm, h1, h2⟩ := packZero_spec s
    rw [pack_blank, hm] at h
    cases h
    exact ⟨rfl, fun i hi => by rw [h1, if_neg (by omega)], h2⟩
  · cases h

end Sys2Proof.Machine
end

