-- ==== Sys2Proof/Laws/Controller.lean ====
section
/-! SUPPORT. What the two emitting operations do when they answer. -/
namespace Sys2Proof.Machine

/-- EMIT.ROW answers exactly when the cycle start holds a value, the engine is idle, the descriptor is there, the pack
answers and leaves the whole frame readable; then this is its effect. -/
theorem emitRow_ok {s t : State} : s.emitRow = .ok t ↔ ∃ t0 d p frame,
    s.cycleStart = some t0 ∧ s.engBusy = false ∧ s.cfg.anims[s.anim]? = some d ∧ s.pack (pkOpOfRow d) = .ok p ∧
    (List.range s.cfg.bufWords).map p.buf.read = frame.map some ∧
    t = { s with
      buf := p.buf
      engBusy := true
      engIdx := 0
      trace := s.trace ++ [{ time := s.now, base := 0, count := s.cfg.bufWords, frame := frame }]
      cursor := (d.advanceCursor s.cursor).1
      mode := if (d.advanceCursor s.cursor).2 then .halt else s.mode
      deadline := some (t0 + d.period.setWidth 64)
      phase := .sleep } := by
  unfold State.emitRow
  constructor
  · intro h
    obtain ⟨t0, h0, h⟩ := bind_ok.1 h
    obtain ⟨_, h1, h⟩ := bind_ok.1 h
    obtain ⟨d, h2, h⟩ := bind_ok.1 h
    obtain ⟨p, h3, h⟩ := bind_ok.1 h
    obtain ⟨q, h4, h⟩ := bind_ok.1 h
    obtain ⟨_, frame, h5, rfl⟩ := txStart_ok.1 h4
    have hp := (pack_ok h3).1
    refine ⟨t0, d, p, frame, readCycleStart_ok.1 h0, checkBufFree_ok.1 h1, desc_ok.1 h2, h3, ?_, ?_⟩
    · rw [hp] at h5; exact h5
    · cases h; rw [hp]
  · rintro ⟨t0, d, p, frame, h0, h1, h2, h3, h4, rfl⟩
    have hp := (pack_ok h3).1
    refine bind_ok.2 ⟨t0, readCycleStart_ok.2 h0, bind_ok.2 ⟨(), checkBufFree_ok.2 h1, bind_ok.2 ⟨d, desc_ok.2 h2,
      bind_ok.2 ⟨p, h3, bind_ok.2 ⟨_, txStart_ok.2 ⟨?_, frame, ?_, rfl⟩, ?_⟩⟩⟩⟩⟩
    · rw [hp]; exact h1
    · rw [hp]; exact h4
    · rw [hp]

/-- EMIT.BLANK answers exactly when the cycle start holds a value and the engine is idle; then this is its effect. -/
theorem emitBlank_ok {s t : State} : s.emitBlank = .ok t ↔ ∃ t0 p frame,
    s.cycleStart = some t0 ∧ s.engBusy = false ∧ s.packZero = .ok p ∧
    (List.range s.cfg.bufWords).map p.buf.read = frame.map some ∧
    t = { s with
      buf := p.buf
      engBusy := true
      engIdx := 0
      trace := s.trace ++ [{ time := s.now, base := 0, count := s.cfg.bufWords, frame := frame }]
      deadline := some (t0 + BitVec.ofNat 64 s.cfg.poll)
      phase := .sleep } := by
  unfold State.emitBlank
  constructor
  · intro h
    obtain ⟨t0, h0, h⟩ := bind_ok.1 h
    obtain ⟨_, h1, h⟩ := bind_ok.1 h
    obtain ⟨p, h3, h⟩ := bind_ok.1 h
    obtain ⟨q, h4, h⟩ := bind_ok.1 h
    obtain ⟨_, frame, h5, rfl⟩ := txStart_ok.1 h4
    have hp := (pack_ok h3).1
    refine ⟨t0, p, frame, readCycleStart_ok.1 h0, checkBufFree_ok.1 h1, h3, ?_, ?_⟩
    · rw [hp] at h5; exact h5
    · cases h; rw [hp]
  · rintro ⟨t0, p, frame, h0, h1, h3, h4, rfl⟩
    have hp := (pack_ok (op := pkOpOfBlank) h3).1
    refine bind_ok.2 ⟨t0, readCycleStart_ok.2 h0, bind_ok.2 ⟨(), checkBufFree_ok.2 h1, bind_ok.2 ⟨p, h3,
      bind_ok.2 ⟨_, txStart_ok.2 ⟨?_, frame, ?_, rfl⟩, ?_⟩⟩⟩⟩
    · rw [hp]; exact h1
    · rw [hp]; exact h4
    · rw [hp]

end Sys2Proof.Machine
end

