-- ==== Sys2Proof/Laws/Decode.lean ====
section
/-! SUPPORT. The small facts of the two decoders and of the decode vector's fields. -/
namespace Sys2Proof

/-- Every decode vector has a row (30_encoding.md R105). -/
theorem decodeDv_total (dv : Byte) : (decodeDv dv).isSome = true := by
  revert dv; decide

/-- Eight bits are read as a decode vector. -/
theorem decodeTableWord_dv (dv : Byte) : decodeTableWord 8 dv.toNat = decodeDv dv := by
  have h := decodeDv_total dv
  simp only [decodeTableWord, decode, if_pos, dv.isLt, BitVec.ofNat_toNat, BitVec.setWidth_eq]
  cases hd : decodeDv dv with
  | none => simp [hd] at h
  | some i => simp

/-- Two bits are read as a Line Packer code. -/
theorem decodeTableWord_pk (op : BitVec 2) : decodeTableWord 2 op.toNat = some (decodePk op) := by
  revert op; decide

namespace Machine

@[simp] theorem Mode.ofBits_bits (m : Mode) : Mode.ofBits m.bits = m := by cases m <;> rfl
@[simp] theorem Phase.ofBits_bits (p : Phase) : Phase.ofBits p.bits = p := by cases p <;> rfl
theorem Mode.bits_ofBits (b : BitVec 2) : (Mode.ofBits b).bits = b := by revert b; decide
theorem Phase.bits_ofBits (b : BitVec 2) : (Phase.ofBits b).bits = b := by revert b; decide

/-- The operation a decode vector selects, by its fields (30_encoding.md R101, R104). -/
theorem decodeDv_dvOf (phase : Phase) (mode : Mode) (pending pressed busy reached : Bool) :
    decodeDv (dvOf phase mode pending pressed busy reached) = some (
      if mode = .reserved then .faultMode
      else match phase with
        | .head =>
          if pending = true then .evtTake
          else match mode with
            | .run => .runStart
            | .wait => if pressed = true then .waitHeld else .waitRel
            | .halt => .haltPoll
            | .reserved => .faultMode
        | .txwRow => if busy = true then .holdTxrow else .emitRow
        | .txwBlank => if busy = true then .holdTxblank else .emitBlank
        | .sleep => if reached = true then .wake else .holdSleep) := by
  cases phase <;> cases mode <;> cases pending <;> cases pressed <;> cases busy <;> cases reached <;> rfl

/-- The decode vector answers exactly when `REACHED` does, and is then made of the six fields. -/
theorem decodeVector_ok {s : State} {dv : Byte} : s.decodeVector = .ok dv ↔
    ∃ t, s.reached = .ok t ∧ dv = dvOf s.phase s.mode s.pending s.pressed s.txBusy t := by
  unfold State.decodeVector
  cases s.reached with
  | ok t => simp [bind, Except.bind, eq_comm]
  | error f => simp [bind, Except.bind]

/-- Outside SLEEP `REACHED` is 0 and reads nothing (30_encoding.md R102). -/
theorem reached_of_ne_sleep {s : State} (h : s.phase ≠ .sleep) : s.reached = .ok false := by
  unfold State.reached; split <;> simp_all

/-- In SLEEP with a deadline `REACHED` is the wrap-safe compare (30_encoding.md R102). -/
theorem reached_of_sleep {s : State} {d : Time} (h : s.phase = .sleep) (hd : s.deadline = some d) :
    s.reached = .ok (decide (0 ≤ sdiffW s.now d)) := by
  unfold State.reached; rw [h]; simp [State.readDeadline, hd, bind, Except.bind]

end Machine
end Sys2Proof
end

