-- ==== Sys2Proof/Laws/Step.lean ====
section
/-! SUPPORT. What a step takes and runs. -/
namespace Sys2Proof.Machine

theorem nextLine_cons {s : State} {line : Line} {rest : List Line} (h : s.script = line :: rest) :
    s.nextLine = (line, { s with script := rest }) := by
  unfold State.nextLine; rw [h]

theorem nextLine_nil {s : State} (h : s.script = []) :
    s.nextLine = (Config.freeLine s.draws, { s with draws := s.draws + 1 }) := by
  unfold State.nextLine; rw [h]

/-- Taking a line changes the script and the draw counter and nothing else. -/
theorem nextLine_eq (s : State) : ∃ sc k, s.nextLine.2 = { s with script := sc, draws := k } := by
  cases h : s.script with
  | nil => rw [nextLine_nil h]; exact ⟨s.script, _, rfl⟩
  | cons l r => rw [nextLine_cons h]; exact ⟨_, s.draws, rfl⟩

/-- A step is one agent's turn on the state its line's settings leave; a configuration that is not admitted has none. -/
theorem step_of_admitted {s : State} (h : s.cfg.admitted = true) :
    step s = (s.nextLine.2.applySettings s.nextLine.1.sets).turn s.nextLine.1.agent := by
  unfold step; rw [if_pos h]

theorem step_of_not_admitted {s : State} (h : s.cfg.admitted = false) : step s = .refused .configNotAdmitted := by
  unfold step; rw [h]; rfl

/-- The controller's turn without a recorded fault runs the operation its decode vector selects. -/
theorem controllerOp_of_faultFree {s : State} (h : s.faults = []) {dv : Byte} (hd : s.decodeVector = .ok dv) :
    s.controllerOp = .ok (decodeDv dv) := by
  simp [State.controllerOp, h, hd, bind, Except.bind]

/-- The engine's turn: which of its events it runs. -/
theorem engineOp_cases (s : State) :
    (s.engReadEnabled = true ∧ s.engineOp = some .engRead) ∨
    (s.engReadEnabled = false ∧ s.engDoneEnabled = true ∧ s.engineOp = some .engDone) ∨
    (s.engReadEnabled = false ∧ s.engDoneEnabled = false ∧ s.engineOp = none) := by
  unfold State.engineOp
  cases s.engReadEnabled <;> cases s.engDoneEnabled <;> simp

/-- Every event of the engine, every fault and every other operation a turn runs is one of these cases. -/
theorem turn_cases (s : State) (a : Agent) :
    (∃ i, s.opOf a = .ok (some i) ∧ s.turn a = exec i s) ∨
    (s.opOf a = .ok none ∧ s.turn a = .next s) ∨
    (∃ f, s.opOf a = .error f ∧ s.turn a = .next (s.raise f)) := by
  unfold State.turn
  cases h : s.opOf a with
  | error f => exact .inr (.inr ⟨f, rfl, rfl⟩)
  | ok o =>
    cases o with
    | none => exact .inr (.inl ⟨rfl, rfl⟩)
    | some i => exact .inl ⟨i, rfl, rfl⟩

end Sys2Proof.Machine
end

