-- ==== Sys2Proof/Laws/Fairness.lean ====
section
/-! SUPPORT. Under the fairness premises of 70_reset_and_hazards.md R281 every hold is lifted. -/
namespace Sys2Proof.Machine

/-- What the controller's operation says of the state it is picked in. -/
theorem controllerOp_some {s : State} {i : Instr} : s.controllerOp = .ok (some i) ↔
    s.faults = [] ∧ ∃ t, s.reached = .ok t ∧ decodeDv (dvOf s.phase s.mode s.pending s.pressed s.txBusy t) = some i := by
  unfold State.controllerOp
  split
  · rename_i hf
    rw [bind_ok]
    constructor
    · rintro ⟨dv, hdv, h⟩
      obtain ⟨t, ht, rfl⟩ := decodeVector_ok.1 hdv
      exact ⟨hf, t, ht, Except.ok.inj h⟩
    · rintro ⟨_, t, ht, h⟩
      exact ⟨_, decodeVector_ok.2 ⟨t, ht, rfl⟩, by rw [h]⟩
  · rename_i hf
    simp [hf]

/-- A hold is selected in its phase while its condition lasts, whatever the event and the button are. -/
theorem decodeDv_hold {i : Instr} {p : Phase} {m : Mode} {e b x t : Bool} (hi : i ∈ holdOps) :
    decodeDv (dvOf p m e b x t) = some i ↔ m ≠ .reserved ∧
      (p = .txwRow ∧ x = true ∧ i = .holdTxrow ∨ p = .txwBlank ∧ x = true ∧ i = .holdTxblank ∨
        p = .sleep ∧ t = false ∧ i = .holdSleep) := by
  rw [decodeDv_dvOf]
  simp only [holdOps, List.mem_cons, List.not_mem_nil, or_false] at hi
  rcases hi with rfl | rfl | rfl <;>
    cases p <;> cases m <;> cases e <;> cases b <;> cases x <;> cases t <;> simp

/-- What each hold waits for (60_exceptions.md R241). -/
theorem heldBy_iff {s : State} {i : Instr} : s.HeldBy i ↔ s.faults = [] ∧ s.mode ≠ .reserved ∧
    (s.phase = .txwRow ∧ s.engBusy = true ∧ i = .holdTxrow ∨ s.phase = .txwBlank ∧ s.engBusy = true ∧ i = .holdTxblank ∨
      s.phase = .sleep ∧ s.reached = .ok false ∧ i = .holdSleep) := by
  unfold State.HeldBy
  constructor
  · rintro ⟨hi, h⟩
    obtain ⟨hf, t, ht, hd⟩ := controllerOp_some.1 h
    obtain ⟨hm, hd⟩ := (decodeDv_hold hi).1 hd
    refine ⟨hf, hm, ?_⟩
    rcases hd with h | h | ⟨h1, rfl, h2⟩
    · exact .inl h
    · exact .inr (.inl h)
    · exact .inr (.inr ⟨h1, ht, h2⟩)
  · rintro ⟨hf, hm, h⟩
    have hi : i ∈ holdOps := by rcases h with ⟨_, _, rfl⟩ | ⟨_, _, rfl⟩ | ⟨_, _, rfl⟩ <;> simp [holdOps]
    refine ⟨hi, controllerOp_some.2 ⟨hf, ?_⟩⟩
    rcases h with h | h | ⟨h1, ht, h2⟩
    · exact ⟨false, reached_of_ne_sleep (by simp [h.1]), (decodeDv_hold hi).2 ⟨hm, .inl h⟩⟩
    · exact ⟨false, reached_of_ne_sleep (by simp [h.1]), (decodeDv_hold hi).2 ⟨hm, .inr (.inl h)⟩⟩
    · exact ⟨false, ht, (decodeDv_hold hi).2 ⟨hm, .inr (.inr ⟨h1, rfl, h2⟩)⟩⟩

/-- A hold runs as the state unchanged. -/
theorem exec_hold {i : Instr} (hi : i ∈ holdOps) (s : State) : exec i s = .next s := by
  simp only [holdOps, List.mem_cons, List.not_mem_nil, or_false] at hi
  rcases hi with rfl | rfl | rfl <;> rfl

/-- The inputs do not lift a hold. -/
theorem heldBy_of_inputs {s : State} {i : Instr} {sc : List Line} {b o : Bool} {c : Nat} (h : s.HeldBy i) :
    ({ s with script := sc, btnN := b, selCode := c, orient := o } : State).HeldBy i := by
  rw [heldBy_iff] at h ⊢; exact h

/-- A state with a raised fault holds nothing: the controller has no step at all. -/
theorem not_heldBy_raise {s : State} {f : Fault} {i : Instr} : ¬(s.raise f).HeldBy i := by
  intro h
  have hf := (heldBy_iff.1 h).1
  have := mem_raise_faults s f
  rw [hf] at this
  cases this

/-- A RESET answers no hold. -/
theorem not_heldBy_reset {s t : State} {i : Instr} (h : exec .reset s = .next t) : ¬t.HeldBy i := by
  intro ht
  simp only [exec, execReset] at h
  split at h
  · rcases settle_next.1 h with h | ⟨f, _, rfl⟩
    · obtain ⟨d, -, rfl⟩ := resetBlock_ok.1 h
      rcases (heldBy_iff.1 ht).2.2 with h | h | h <;> cases h.1
    · exact not_heldBy_raise ht
  · cases h

/-- What an engine's turn changes of what a hold waits for. -/
theorem turn_engine {s t : State} {i : Instr} (ht : t.HeldBy i) (h : s.turn .engine = .next t) :
    t.cfg = s.cfg ∧ t.deadline = s.deadline ∧ t.now = s.now ∧
      (t.engBusy = true → s.engIdx ≤ s.cfg.bufWords → t.engIdx = s.engIdx + 1 ∧ t.engIdx ≤ s.cfg.bufWords) := by
  simp only [State.turn, State.opOf] at h
  rcases engineOp_cases s with ⟨hr, ho⟩ | ⟨-, hd, ho⟩ | ⟨hr, hd, ho⟩ <;> rw [ho] at h
  · simp only [exec, execEngRead, if_pos hr] at h
    rcases settle_next.1 h with h | ⟨f, _, rfl⟩
    · obtain ⟨w, -, h⟩ := bind_ok.1 h
      cases h
      refine ⟨rfl, rfl, rfl, fun _ _ => ⟨rfl, ?_⟩⟩
      simp only [State.engReadEnabled, Bool.and_eq_true, decide_eq_true_eq] at hr
      exact hr.2
    · exact absurd ht not_heldBy_raise
  · simp only [exec, execEngDone, if_pos hd] at h
    cases h
    exact ⟨rfl, rfl, rfl, fun h => absurd h (by simp)⟩
  · cases h
    refine ⟨rfl, rfl, rfl, fun hb hle => ?_⟩
    simp [State.engReadEnabled, State.engDoneEnabled, hb] at hr hd
    omega

/-- What a step does while the same hold lasts: a tick advances `NOW`, an engine that stays busy reads its next word, and
nothing else that the hold waits for changes. -/
theorem step_of_heldBy {s t : State} {l : Line} {i : Instr} (h : s.HeldBy i) (h' : t.HeldBy i)
    (hs : step { s with script := [l] } = .next t) :
    t.cfg = s.cfg ∧ t.deadline = s.deadline ∧ t.now = (if l.agent = .timeBase then s.now + 1 else s.now) ∧
      (t.engBusy = true → s.engIdx ≤ s.cfg.bufWords →
        t.engIdx = (if l.agent = .engine then s.engIdx + 1 else s.engIdx) ∧ t.engIdx ≤ s.cfg.bufWords) := by
  by_cases ha : s.cfg.admitted = true
  · rw [step_of_admitted (s := { s with script := [l] }) ha, nextLine_cons (s := { s with script := [l] }) rfl] at hs
    obtain ⟨b, c, o, hu⟩ := applySettings_eq ({ s with script := [] } : State) l.sets
    simp only at hs hu
    rw [hu] at hs
    cases hl : l.agent with
    | engine => rw [hl] at hs; simpa using turn_engine h' hs
    | controller =>
      rw [hl] at hs
      simp only [State.turn, State.opOf] at hs
      rw [(heldBy_of_inputs h).2] at hs
      simp only [exec_hold h.1] at hs
      cases hs
      exact ⟨rfl, rfl, rfl, fun _ hle => ⟨rfl, hle⟩⟩
    | buttonHandler => rw [hl] at hs; cases hs; exact ⟨rfl, rfl, rfl, fun _ hle => ⟨rfl, hle⟩⟩
    | timeBase => rw [hl] at hs; cases hs; exact ⟨rfl, rfl, rfl, fun _ hle => ⟨rfl, hle⟩⟩
    | environment => rw [hl] at hs; exact absurd h' (not_heldBy_reset hs)
  · rw [step_of_not_admitted (s := { s with script := [l] }) (by simpa using ha)] at hs
    cases hs

/-- A number that never rises from `k` on does not fall infinitely often. -/
theorem no_infinite_descent {f : Nat → Nat} {k : Nat} (hle : ∀ j, k ≤ j → f (j + 1) ≤ f j)
    (hlt : ∀ j, k ≤ j → ∃ m, j ≤ m ∧ f (m + 1) < f m) : False := by
  have mono : ∀ n j, k ≤ j → f (j + n) ≤ f j := by
    intro n
    induction n with
    | zero => intro j _; exact le_rfl
    | succ n ih => intro j hj; exact (hle (j + n) (by omega)).trans (ih j hj)
  have drop : ∀ n, ∃ j, k ≤ j ∧ f j + n ≤ f k := by
    intro n
    induction n with
    | zero => exact ⟨k, le_rfl, le_rfl⟩
    | succ n ih =>
      obtain ⟨j, hj, h⟩ := ih
      obtain ⟨m, hm, h1⟩ := hlt j hj
      have h2 := mono (m - j) j hj
      rw [Nat.add_sub_cancel' hm] at h2
      exact ⟨m + 1, by omega, by omega⟩
  obtain ⟨j, _, h⟩ := drop (f k + 1)
  omega

/-- Holds lift under fairness (70_reset_and_hazards.md R281): in a fair run every hold that begins in a state of the
invariant ends. -/
theorem hold_is_lifted {r : Nat → State} {line : Nat → Line} (h : FairRun r line) {k : Nat} {i : Instr}
    (hi : (r k).Inv) : ∃ j, k ≤ j ∧ ¬(r j).HeldBy i := by
  by_contra hc
  have held : ∀ j, k ≤ j → (r j).HeldBy i := fun j hj => by
    by_contra hn; exact hc ⟨j, hj, hn⟩
  have stp := fun j hj => step_of_heldBy (held j hj) (held (j + 1) (by omega)) (h.isRun j)
  by_cases hs : i = .holdSleep
  · have sl : ∀ j, k ≤ j → (r j).phase = .sleep ∧ (r j).reached = .ok false := fun j hj => by
      have := (heldBy_iff.1 (held j hj)).2.2
      subst hs
      simpa using this
    obtain ⟨d, hd⟩ := Option.isSome_iff_exists.1 (hi.2.1.2.2.2.1 (sl k le_rfl).1)
    have dl : ∀ n, (r (k + n)).deadline = some d := by
      intro n
      induction n with
      | zero => exact hd
      | succ n ih => rw [← ih]; exact (stp (k + n) (by omega)).2.1
    have ne : ∀ j, k ≤ j → (d - (r j).now).toNat ≠ 0 := fun j hj h0 => by
      have hdj := dl (j - k)
      rw [Nat.add_sub_cancel' hj] at hdj
      have hr := (sl j hj).2
      rw [reached_of_sleep (sl j hj).1 hdj] at hr
      have : (r j).now = d := by bv_omega
      simp [this, sdiffW] at hr
    refine no_infinite_descent (f := fun j => (d - (r j).now).toNat) (k := k) (fun j hj => ?_) (fun j hj => ?_)
    · have hn := (stp j hj).2.2.1
      have h0 := ne j hj
      simp only [hn]
      split
      · bv_omega
      · exact le_rfl
    · obtain ⟨m, hm, ht⟩ := h.tick j
      have hn := (stp m (by omega)).2.2.1
      have h0 := ne m (by omega)
      rw [if_pos ht] at hn
      refine ⟨m, hm, ?_⟩
      simp only [hn]
      bv_omega
  · have bz : ∀ j, k ≤ j → (r j).engBusy = true := fun j hj => by
      rcases (heldBy_iff.1 (held j hj)).2.2 with h | h | h
      · exact h.2.1
      · exact h.2.1
      · exact absurd h.2.2 hs
    have h0 : (r k).engIdx ≤ (r k).cfg.bufWords := by
      have := hi.2.2.2.2.2.1.1 (bz k le_rfl)
      cases hg : (r k).trace.getLast? with
      | none => simp [hg] at this
      | some ev => simp [hg] at this; exact this.1.2
    have cf : ∀ n, (r (k + n)).cfg = (r k).cfg ∧ (r (k + n)).engIdx ≤ (r k).cfg.bufWords := by
      intro n
      induction n with
      | zero => exact ⟨rfl, h0⟩
      | succ n ih =>
        obtain ⟨h1, -, -, h2⟩ := stp (k + n) (by omega)
        have h3 := (h2 (bz _ (by omega)) (by rw [ih.1]; exact ih.2)).2
        rw [ih.1] at h1 h3
        exact ⟨h1, h3⟩
    have cf' : ∀ j, k ≤ j → (r j).cfg = (r k).cfg ∧ (r j).engIdx ≤ (r k).cfg.bufWords := fun j hj => by
      have := cf (j - k); rwa [Nat.add_sub_cancel' hj] at this
    have idx := fun j hj => (stp j hj).2.2.2 (bz _ (by omega)) (by rw [(cf' j hj).1]; exact (cf' j hj).2)
    refine no_infinite_descent (f := fun j => (r k).cfg.bufWords - (r j).engIdx) (k := k) (fun j hj => ?_) (fun j hj => ?_)
    · have h1 := (idx j hj).1
      split at h1 <;> omega
    · obtain ⟨m, hm, ht⟩ := h.engine j
      have hkm : k ≤ m := by omega
      rcases ht with ht | ht
      · rw [bz m hkm] at ht; cases ht
      · have h1 := idx m hkm
        rw [if_pos ht, (cf' m hkm).1] at h1
        exact ⟨m, hm, by omega⟩

end Sys2Proof.Machine
end

