-- ==== Sys2Proof/Laws/PerInstr.lean ====
section
/-! SUPPORT. The per-instruction family Roundtrip: what the table's decoder reads from an operation's own canonical
encoding (free letters zero) is that operation, and an operation of format FN or EV has no encoding. -/
namespace Sys2Proof.Laws.Roundtrip

/-- The canonical encoding of `i`, if it has one, decodes to `i`. -/
def Statement (i : Instr) : Prop :=
  ∀ e, encode i 0 = some e → decodeTableWord e.1 e.2 = some i

theorem faultMode : Statement .faultMode := by intro e h; cases h; decide
theorem evtTake : Statement .evtTake := by intro e h; cases h; decide
theorem runStart : Statement .runStart := by intro e h; cases h; decide
theorem waitHeld : Statement .waitHeld := by intro e h; cases h; decide
theorem waitRel : Statement .waitRel := by intro e h; cases h; decide
theorem haltPoll : Statement .haltPoll := by intro e h; cases h; decide
theorem emitRow : Statement .emitRow := by intro e h; cases h; decide
theorem holdTxrow : Statement .holdTxrow := by intro e h; cases h; decide
theorem emitBlank : Statement .emitBlank := by intro e h; cases h; decide
theorem holdTxblank : Statement .holdTxblank := by intro e h; cases h; decide
theorem wake : Statement .wake := by intro e h; cases h; decide
theorem holdSleep : Statement .holdSleep := by intro e h; cases h; decide
theorem packSingle : Statement .packSingle := by intro e h; cases h; decide
theorem packComp : Statement .packComp := by intro e h; cases h; decide
theorem packBlank : Statement .packBlank := by intro e h; cases h; decide
theorem faultPkop : Statement .faultPkop := by intro e h; cases h; decide
theorem spread (b : Byte) : Statement (.spread b) := by intro e h; cases h
theorem interleave (v0 v1 v2 v3 : Byte) : Statement (.interleave v0 v1 v2 v3) := by intro e h; cases h
theorem limit (d : Descriptor) : Statement (.limit d) := by intro e h; cases h
theorem extract (d : Descriptor) (y : Int) : Statement (.extract d y) := by intro e h; cases h
theorem rowbyte (ref : RowRef) (o : Nat) : Statement (.rowbyte ref o) := by intro e h; cases h
theorem start (d : Descriptor) : Statement (.start d) := by intro e h; cases h
theorem advance (d : Descriptor) (c : Cursor) : Statement (.advance d c) := by intro e h; cases h
theorem select (code : Nat) : Statement (.select code) := by intro e h; cases h
theorem reset : Statement .reset := by intro e h; cases h
theorem btnEdge : Statement .btnEdge := by intro e h; cases h
theorem tick : Statement .tick := by intro e h; cases h
theorem engRead : Statement .engRead := by intro e h; cases h
theorem engDone : Statement .engDone := by intro e h; cases h

end Sys2Proof.Laws.Roundtrip
end

