-- ==== Sys2Proof/Tests/Slice0.lean ====
section
/-! SUPPORT. The model's own tests: expected results from spec/95_test_vectors.md and from the examples of the rules, one
ill-formed term for each well-formedness check, and a witness for the hypotheses of every statement. -/
set_option maxRecDepth 20000
namespace Sys2Proof.Tests
open Sys2Proof Sys2Proof.Machine

/-! ## Helpers -/

/-- One field of the state an operation or a step answers. -/
def after {α : Type} (o : Host.Outcome State Fault Refusal) (f : State → α) : Option α :=
  match o with
  | .next t => some (f t)
  | .fault _ => none
  | .refused _ => none

/-- Whether a step is refused because of its configuration. -/
def refusedConfig (o : Host.Outcome State Fault Refusal) : Bool :=
  match o with
  | .refused r => decide (r = .configNotAdmitted)
  | .next _ => false
  | .fault _ => false

/-- A descriptor with the given policy. -/
def desc (height : BitVec 16) (loop mirror multiline : Bool) (rows : List (List Byte)) : Descriptor :=
  { height := height, period := 20, loop := loop, mirror := mirror, multiline := multiline, rows := rows }

/-- `R1` of 95 section 2.2. -/
def rowR1 : List Byte := [0x11, 0x22, 0x33, 0x44, 0x55, 0x66, 0x77, 0x88, 0x99]

/-- A reset state with `n` positions and the one animation `d`. -/
def playing (n : Nat) (d : Descriptor) : State :=
  { State.reset with cfg := { exampleConfig with n := n, anims := [d], selList := [] } }

/-- A started cycle: EMIT.ROW is next. -/
def started (s : State) : State := { s with phase := .txwRow, cycleStart := some 100, now := 105 }

/-- A state whose engine is busy with the frame of PK1, `idx` words sent. -/
def busyAt (idx : Nat) (sent : List Nibble) : State :=
  { State.reset with
    phase := .sleep
    deadline := some 120
    now := 119
    engBusy := true
    engIdx := idx
    sent := sent
    buf := [(0, 0x42124212), (1, 0x06450645), (2, 0x42354235)]
    trace := [{ time := 100, base := 0, count := 3, frame := [0x42124212, 0x06450645, 0x42354235] }] }

/-- The nibbles of the word of A1. -/
def nibblesA1 : List Nibble := [4, 2, 1, 2, 4, 2, 1, 2]

/-- The nibbles of the frame of PK1. -/
def nibblesPk1 : List Nibble :=
  [4, 2, 1, 2, 4, 2, 1, 2, 0, 6, 4, 5, 0, 6, 4, 5, 4, 2, 3, 5, 4, 2, 3, 5]

/-- A sleeping controller one tick before its deadline (S16). -/
def sleeping : State := { State.reset with phase := .sleep, deadline := some 120, now := 119 }

/-- A waiting controller with a started blank poll (S10). -/
def blanking : State :=
  { State.reset with mode := .wait, phase := .txwBlank, cycleStart := some 500, now := 507, btnN := false }

/-! ## Well-formedness: one ill-formed term for each check -/

theorem test_example_config_admitted : exampleConfig.admitted = true := by decide

theorem test_wf_refuses_no_positions :
    ({ exampleConfig with n := 0, anims := [desc 1 false false false [[]]], selList := [] } : Config).admitted
      = false := by decide

theorem test_wf_refuses_no_animations :
    ({ exampleConfig with anims := [], selList := [] } : Config).admitted
      = false := by decide

theorem test_wf_refuses_height_zero :
    ({ exampleConfig with anims := [desc 0 false false false []], selList := [] } : Config).admitted
      = false := by decide

theorem test_wf_refuses_missing_row :
    ({ exampleConfig with anims := [desc 2 false false false [rowR1]], selList := [] } : Config).admitted
      = false := by decide

theorem test_wf_refuses_short_row :
    ({ exampleConfig with anims := [desc 1 false false false [rowR1.tail]], selList := [] } : Config).admitted
      = false := by decide

theorem test_wf_refuses_period_too_long :
    ({ exampleConfig with anims := [{ desc 1 false false false [rowR1] with period := 0x80000000 }], selList := [] } : Config).admitted
      = false := by decide

theorem test_wf_refuses_selector_width_zero :
    ({ exampleConfig with selWidth := 0 } : Config).admitted
      = false := by decide

theorem test_wf_refuses_tick_zero :
    ({ exampleConfig with tick := 0 } : Config).admitted
      = false := by decide

theorem test_wf_refuses_default_out_of_table :
    ({ exampleConfig with selDefault := 2 } : Config).admitted
      = false := by decide

theorem test_wf_refuses_selection_out_of_table :
    ({ exampleConfig with selList := [(1, 2)] } : Config).admitted
      = false := by decide

theorem test_wf_refuses_poll_zero :
    ({ exampleConfig with poll := 0 } : Config).admitted
      = false := by decide

theorem test_wf_refuses_poll_too_long :
    ({ exampleConfig with poll := 2 ^ 31 } : Config).admitted
      = false := by decide

theorem test_wf_admits_longest_intervals :
    ({ exampleConfig with
        poll := 2 ^ 31 - 1, anims := [{ desc 1 false false false [rowR1] with period := 0x7FFFFFFF }],
        selList := [] } : Config).admitted = true := by decide

theorem test_wf_refuses_operands :
    ([Instr.limit (desc 0 false false false []),
      .extract (desc 1 false false false [rowR1]) (2 ^ 31), .extract (desc 1 false false false [rowR1]) (-2 ^ 31 - 1),
      .extract (desc 0 false false false []) 0,
      .rowbyte .blank 9, .rowbyte (.row 0) 9, .rowbyte (.row 65536) 0,
      .start (desc 0 false false false []),
      .advance (desc 1 false false false [rowR1]) 1, .advance (desc 1 false false false [rowR1]) (-3),
      .advance (desc 0 false false false []) (-1),
      .select 16].map fun i => i.wf exampleConfig) = List.replicate 12 false := by decide

theorem test_wf_admits_operands_at_their_bounds :
    ([Instr.limit (desc 1 false false false [rowR1]),
      .extract (desc 1 false false false [rowR1]) (2 ^ 31 - 1), .extract (desc 1 false false false [rowR1]) (-2 ^ 31),
      .rowbyte .blank 8, .rowbyte (.row 65535) 8,
      .start (desc 1 false false false [rowR1]),
      .advance (desc 1 false false false [rowR1]) 0, .advance (desc 1 false false false [rowR1]) (-2),
      .select 15].map fun i => i.wf exampleConfig) = List.replicate 9 true := by decide

/-! ## Decode: words written out from 30_encoding.md R104 and R106, and the table of 95 section 2.5 -/

theorem test_decode_words :
    [0b11111111, 0b00001000, 0b00101111, 0b00000111, 0b00010100, 0b00010111, 0b00010000, 0b00010011, 0b00100000,
      0b00100111].map (decodeTableWord 8) =
    [Instr.faultMode, .evtTake, .evtTake, .runStart, .waitHeld, .waitHeld, .waitRel, .waitRel, .haltPoll,
      .haltPoll].map some := by decide

theorem test_decode_words_of_the_other_phases :
    [0b01000000, 0b01101101, 0b01000010, 0b01101111, 0b10010100, 0b10101101, 0b10010110, 0b10101111, 0b11000001,
      0b11101111, 0b11000000, 0b11101110].map (decodeTableWord 8) =
    [Instr.emitRow, .emitRow, .holdTxrow, .holdTxrow, .emitBlank, .emitBlank, .holdTxblank, .holdTxblank, .wake,
      .wake, .holdSleep, .holdSleep].map some := by decide

theorem test_decode_pk_words :
    [0b00, 0b01, 0b10, 0b11].map (decodeTableWord 2) =
    [Instr.packSingle, .packComp, .packBlank, .faultPkop].map some := by decide

theorem test_decode_rejects :
    [decode 8 256, decode 2 4, decode 16 0, decode 0 0] =
    [.error .tooWide, .error .tooWide, .error .noSuchWidth, .error .noSuchWidth] := by decide

/-- The row of the decode table of 95 section 2.5 for headRun. -/
def decode_headRun : List Instr :=
  [.runStart, .runStart, .runStart, .runStart, .runStart, .runStart, .runStart, .runStart,
   .evtTake, .evtTake, .evtTake, .evtTake, .evtTake, .evtTake, .evtTake, .evtTake]

/-- The row of the decode table of 95 section 2.5 for headWait. -/
def decode_headWait : List Instr :=
  [.waitRel, .waitRel, .waitRel, .waitRel, .waitHeld, .waitHeld, .waitHeld, .waitHeld,
   .evtTake, .evtTake, .evtTake, .evtTake, .evtTake, .evtTake, .evtTake, .evtTake]

/-- The row of the decode table of 95 section 2.5 for headHalt. -/
def decode_headHalt : List Instr :=
  [.haltPoll, .haltPoll, .haltPoll, .haltPoll, .haltPoll, .haltPoll, .haltPoll, .haltPoll,
   .evtTake, .evtTake, .evtTake, .evtTake, .evtTake, .evtTake, .evtTake, .evtTake]

/-- The row of the decode table of 95 section 2.5 for reservedMode. -/
def decode_reservedMode : List Instr :=
  [.faultMode, .faultMode, .faultMode, .faultMode, .faultMode, .faultMode, .faultMode, .faultMode,
   .faultMode, .faultMode, .faultMode, .faultMode, .faultMode, .faultMode, .faultMode, .faultMode]

/-- The row of the decode table of 95 section 2.5 for txwRow. -/
def decode_txwRow : List Instr :=
  [.emitRow, .emitRow, .holdTxrow, .holdTxrow, .emitRow, .emitRow, .holdTxrow, .holdTxrow,
   .emitRow, .emitRow, .holdTxrow, .holdTxrow, .emitRow, .emitRow, .holdTxrow, .holdTxrow]

/-- The row of the decode table of 95 section 2.5 for txwBlank. -/
def decode_txwBlank : List Instr :=
  [.emitBlank, .emitBlank, .holdTxblank, .holdTxblank, .emitBlank, .emitBlank, .holdTxblank, .holdTxblank,
   .emitBlank, .emitBlank, .holdTxblank, .holdTxblank, .emitBlank, .emitBlank, .holdTxblank, .holdTxblank]

/-- The row of the decode table of 95 section 2.5 for sleepRow. -/
def decode_sleepRow : List Instr :=
  [.holdSleep, .wake, .holdSleep, .wake, .holdSleep, .wake, .holdSleep, .wake,
   .holdSleep, .wake, .holdSleep, .wake, .holdSleep, .wake, .holdSleep, .wake]

/-- What the sixteen vectors with the given upper nibble decode to. -/
def decodedRow (hi : Nat) : List (Option Instr) := (List.range 16).map fun lo => decodeTableWord 8 (16 * hi + lo)

theorem test_decode_table_head : [0, 1, 2, 3].map decodedRow =
    [decode_headRun, decode_headWait, decode_headHalt, decode_reservedMode].map (List.map some) := by decide

theorem test_decode_table_txw_row : [4, 5, 6, 7].map decodedRow =
    [decode_txwRow, decode_txwRow, decode_txwRow, decode_reservedMode].map (List.map some) := by decide

theorem test_decode_table_txw_blank : [8, 9, 10, 11].map decodedRow =
    [decode_txwBlank, decode_txwBlank, decode_txwBlank, decode_reservedMode].map (List.map some) := by decide

theorem test_decode_table_sleep : [12, 13, 14, 15].map decodedRow =
    [decode_sleepRow, decode_sleepRow, decode_sleepRow, decode_reservedMode].map (List.map some) := by decide

/-- The operation the decode vector of the state selects, for the states of S1 to S17. -/
theorem test_decode_vectors_of_states :
    [({ State.reset with pending := true } : State).decodeVector,
      ({ State.reset with mode := .wait, pending := true, btnN := false } : State).decodeVector,
      ({ State.reset with engBusy := true } : State).decodeVector,
      (started State.reset).decodeVector, blanking.decodeVector, sleeping.decodeVector,
      ({ sleeping with now := 120, mode := .halt, pending := true } : State).decodeVector,
      ({ State.reset with mode := .reserved } : State).decodeVector] =
    [.ok 0b00001000, .ok 0b00011100, .ok 0b00000010, .ok 0b01000000, .ok 0b10010100, .ok 0b11000000, .ok 0b11101001,
      .ok 0b00110000] := by decide

/-! ## Bit Interleaver (95 section 2.1) -/

theorem test_spread :
    [0x00, 0x01, 0x02, 0x10, 0x80, 0xA5, 0xFF, 0x55, 0xAA, 0x3C, 0xC3, 0x7F, 0xFE, 0xF0, 0x0F].map spread =
    [0x00000000, 0x00000001, 0x00000010, 0x00010000, 0x10000000, 0x10100101, 0x11111111, 0x01010101, 0x10101010,
      0x00111100, 0x11000011, 0x01111111, 0x11111110, 0x11110000, 0x00001111] := by decide

theorem test_interleave :
    [interleave 0x00 0x00 0x00 0x00, interleave 0xFF 0x00 0x00 0x00, interleave 0x00 0xFF 0x00 0x00,
      interleave 0x00 0x00 0xFF 0x00, interleave 0x00 0x00 0x00 0xFF, interleave 0xFF 0xFF 0xFF 0xFF,
      interleave 0x80 0x00 0x00 0x00, interleave 0x01 0x00 0x00 0x00, interleave 0x00 0x00 0x00 0x80] =
    [0x00000000, 0x11111111, 0x22222222, 0x44444444, 0x88888888, 0xFFFFFFFF, 0x10000000, 0x00000001,
      0x80000000] := by decide

theorem test_interleave_mixed_lanes :
    [interleave 0x80 0x40 0x20 0x10, interleave 0x01 0x02 0x04 0x08, interleave 0xA5 0x3C 0x00 0x00,
      interleave 0x3C 0xA5 0x00 0x00, interleave 0x12 0x34 0x56 0x78, interleave 0x78 0x56 0x34 0x12,
      interleave 0xAA 0x55 0xAA 0x55, interleave 0xFF 0x00 0xFF 0x00] =
    [0x12480000, 0x00008421, 0x10322301, 0x20311302, 0x0CAF8650, 0x035F16A0, 0x5A5A5A5A, 0x55555555] := by decide

theorem test_exec_interleaver :
    (after (exec (.spread 0x80) State.reset) State.combOut, after (exec (.interleave 0x80 0x40 0x20 0x10) State.reset)
      State.combOut) = (some (some (.word 0x10000000)), some (some (.word 0x12480000))) := by decide

/-! ## Line Packer (95 section 2.2) -/

/-- The row of PK2. -/
def rowPk2 : List Byte := [0xFF, 0, 0, 0, 0xFF, 0, 0, 0, 0xFF]

/-- The 18 bytes `01 .. 12`. -/
def row18 : List Byte :=
  [0x01, 0x02, 0x03, 0x04, 0x05, 0x06, 0x07, 0x08, 0x09] ++ [0x0A, 0x0B, 0x0C, 0x0D, 0x0E, 0x0F, 0x10, 0x11, 0x12]

theorem test_pack_single :
    (after (exec .packSingle (playing 1 (desc 1 false false false [rowR1]))) State.buf,
      after (exec .packSingle (playing 1 (desc 1 false false false [rowPk2]))) State.buf) =
    (some [(0, 0x42124212), (1, 0x06450645), (2, 0x42354235)],
      some [(0, 0x22222222), (1, 0x11111111), (2, 0x44444444)]) := by decide

/-- `s` with the other row layout. -/
def stripMajor (s : State) : State := { s with cfg := { s.cfg with rowLayout := .stripMajor } }

theorem test_pack_single_two_positions :
    (after (exec .packSingle (playing 2 (desc 1 false false false [row18]))) State.buf,
      after (exec .packSingle (stripMajor (playing 2 (desc 1 false false false [row18])))) State.buf) =
    (some [(0, 0x00004212), (1, 0x00000645), (2, 0x00004235), (3, 0x00043235), (4, 0x00043212), (5, 0x00043362)],
      some [(0, 0x00006450), (1, 0x00004627), (2, 0x00006457), (3, 0x00042127), (4, 0x00042120),
        (5, 0x00042350)]) := by decide

/-- A multiline animation of three rows `top`, `mid`, `bottom`, at cursor 0. -/
def composite (n : Nat) (top mid bottom : List Byte) (reverse : Bool) : State :=
  { playing n (desc 3 false false true [top, mid, bottom]) with reverse := reverse }

theorem test_pack_comp :
    ([false, true].map fun r => after (exec .packComp (composite 1 (List.replicate 9 0xFF) (List.replicate 9 0x0F)
      (List.replicate 9 0x01) r)) State.buf) =
    [some [(0, 0x44446667), (1, 0x44446667), (2, 0x44446667)],
      some [(0, 0x11113337), (1, 0x11113337), (2, 0x11113337)]] := by decide

/-- PK5a, PK5b and PK8. -/
theorem test_pack_comp_blank_rows_and_two_positions :
    ([false, true].map fun r => after (exec .packComp
      { playing 1 (desc 1 false false true [rowR1]) with cursor := -2, reverse := r }) State.buf) =
    [some [(0, 0x00100010), (1, 0x00010001), (2, 0x00110011)],
      some [(0, 0x40004000), (1, 0x04440444), (2, 0x40044004)]] ∧
    ([false, true].map fun r => after (exec .packComp (composite 2 row18 (List.replicate 18 0x80)
      (List.replicate 9 0x00 ++ List.replicate 9 0xFF) r)) State.buf) =
    [some [(0, 0x20004000), (1, 0x20000444), (2, 0x20004004), (3, 0x31151115), (4, 0x31151111), (5, 0x31151151)],
      some [(0, 0x20000010), (1, 0x20000001), (2, 0x20000011), (3, 0x64445455), (4, 0x64445454),
        (5, 0x64445544)]] := by decide

theorem test_pack_blank :
    after (exec .packBlank { busyAt 0 [] with engBusy := false }) State.buf = some [(0, 0), (1, 0), (2, 0)] := by decide

theorem test_pack_while_busy_is_a_race :
    (after (exec .packBlank (busyAt 2 [])) State.faults, after (exec .packBlank (busyAt 2 [])) State.buf) =
    (some [.bufRace 2], some (busyAt 2 []).buf) := by decide

theorem test_fault_pkop :
    after (exec .faultPkop State.reset) id = some { State.reset with faults := [.reservedPkop 3] } := by decide

/-! ## Frame Source (95 section 2.3) -/

/-- EXTRACT at `y = -3 .. 13`, the blank row written as -1. -/
def extractRow (d : Descriptor) : List Int :=
  (List.range 17).map fun k =>
    match d.extract ((k : Int) - 3) with
    | .blank => -1
    | .row r => r

/-- A descriptor without rows, for the functions that read none. -/
def policy (height : BitVec 16) (loop mirror : Bool) : Descriptor := desc height loop mirror false []

theorem test_extract_height_three :
    [policy 3 false false, policy 3 false true, policy 3 true false, policy 3 true true].map extractRow =
    [[-1, -1, -1, 0, 1, 2, -1, -1, -1, -1, -1, -1, -1, -1, -1, -1, -1],
     [-1, -1, -1, 0, 1, 2, 2, 1, 0, -1, -1, -1, -1, -1, -1, -1, -1],
     [-1, -1, -1, 0, 1, 2, 0, 1, 2, 0, 1, 2, 0, 1, 2, 0, 1],
     [-1, -1, -1, 0, 1, 2, 2, 1, 0, 0, 1, 2, 2, 1, 0, 0, 1]] := by decide

theorem test_extract_heights_one_and_four :
    [policy 1 false false, policy 1 false true, policy 1 true false, policy 1 true true, policy 4 true true].map extractRow =
    [[-1, -1, -1, 0, -1, -1, -1, -1, -1, -1, -1, -1, -1, -1, -1, -1, -1],
     [-1, -1, -1, 0, 0, -1, -1, -1, -1, -1, -1, -1, -1, -1, -1, -1, -1],
     [-1, -1, -1, 0, 0, 0, 0, 0, 0, 0, 0, 0, 0, 0, 0, 0, 0],
     [-1, -1, -1, 0, 0, 0, 0, 0, 0, 0, 0, 0, 0, 0, 0, 0, 0],
     [-1, -1, -1, 0, 1, 2, 3, 3, 2, 1, 0, 0, 1, 2, 3, 3, 2]] := by decide

theorem test_limit :
    [policy 3 false false, policy 3 false true, policy 3 true false, policy 3 true true,
      policy 1 false false, policy 1 false true, policy 1 true false,
      policy 1 true true, policy 4 true true].map Descriptor.limit =
    [3, 6, 3, 6, 1, 2, 1, 2, 8] := by decide

theorem test_exec_frame_source :
    [after (exec (.limit (policy 4 true true)) State.reset) State.combOut,
      after (exec (.extract (policy 4 true true) 13) State.reset) State.combOut,
      after (exec (.rowbyte .blank 5) State.reset) State.combOut,
      after (exec (.rowbyte (.row 1) 4) State.reset) State.combOut] =
    [some (some (.limit 8)), some (some (.row (.row 2))), some (some (.byte 0)), some (some (.byte 0xFF))] := by decide

theorem test_rowbyte_out_of_range :
    [after (exec (.rowbyte .blank 9) State.reset) State.faults, after (exec (.rowbyte (.row 0) 9) State.reset) State.faults,
      after (exec (.rowbyte (.row 3) 0) State.reset) State.faults, after (exec (.rowbyte (.row 2) 8) State.reset) State.faults] =
    [some [.indexRange 9], some [.indexRange 9], some [.indexRange 3], some []] := by decide

/-! ## Playback Controller: helpers (95 section 2.4, H1 to H10 and T1 to T5) -/

theorem test_start :
    [after (exec (.start (desc 1 false false false [])) State.reset) State.combOut,
      after (exec (.start (desc 1 false false true [])) State.reset) State.combOut] =
    [some (some (.cursor 0)), some (some (.cursor (-2)))] := by decide

theorem test_advance :
    [after (exec (.advance (policy 3 false false) 1) State.reset) State.combOut,
      after (exec (.advance (policy 3 false false) 2) State.reset) State.combOut,
      after (exec (.advance (policy 3 true false) 2) State.reset) State.combOut,
      after (exec (.advance (policy 4 true true) (-2)) State.reset) State.combOut,
      after (exec (.advance (policy 1 true false) 0) State.reset) State.combOut,
      after (exec (.advance (policy 1 false false) (-1)) State.reset) State.combOut,
      after (exec (.advance (policy 1 false false) 0) State.reset) State.combOut] =
    [some (some (.advance 2 false)), some (some (.advance 3 true)), some (some (.advance 0 false)),
      some (some (.advance (-1) false)), some (some (.advance 0 false)), some (some (.advance 0 false)),
      some (some (.advance 1 true))] := by decide

theorem test_select :
    [after (exec (.select 5) State.reset) State.combOut, after (exec (.select 1) State.reset) State.combOut,
      after (exec (.select 0) State.reset) State.combOut] =
    [some (some (.anim 0)), some (some (.anim 1)), some (some (.anim 0))] := by decide

theorem test_reached :
    [({ sleeping with now := 119, deadline := some 120 } : State).reached,
      ({ sleeping with now := 120, deadline := some 120 } : State).reached,
      ({ sleeping with now := 5, deadline := some (-3) } : State).reached,
      ({ sleeping with now := -3, deadline := some 5 } : State).reached,
      State.reset.reached, ({ sleeping with deadline := none } : State).reached] =
    [.ok false, .ok true, .ok true, .ok false, .ok false, .error (.unwrittenRead .deadline)] := by decide

/-! ## Playback Controller: single steps (95 section 2.4, S1 to S17) -/

theorem test_evt_take :
    after (exec .evtTake { State.reset with pending := true, cursor := 5 }) id =
    some { State.reset with mode := .wait, cursor := 5 } := by decide

theorem test_run_start :
    after (exec .runStart { State.reset with now := 1000, engBusy := true }) id =
    some { State.reset with now := 1000, engBusy := true, cycleStart := some 1000, phase := .txwRow } := by decide

/-- S6: the last row of a non-looping animation. -/
theorem test_emit_row_halts :
    after (exec .emitRow (started { State.reset with cursor := 2 })) id =
    some { started State.reset with
      cursor := 3, mode := .halt, deadline := some 120, phase := .sleep, engBusy := true, engIdx := 0,
      buf := [(0, 0), (1, 0), (2, 0x44444444)],
      trace := [{ time := 105, base := 0, count := 3, frame := [0, 0, 0x44444444] }] } := by decide

/-- S7: a looping multiline animation of height 3 at its last cursor wraps its rows and its cursor. -/
theorem test_emit_row_composite_wraps :
    after (exec .emitRow (started { playing 1 (desc 3 true false true [List.replicate 9 0x01, List.replicate 9 0x02,
      List.replicate 9 0x04]) with cursor := 2 })) (fun t => (t.cursor, t.mode, t.buf)) =
    some (0, .run, [(0, 0x00000412), (1, 0x00000412), (2, 0x00000412)]) := by decide

/-- S8: a period of 0 ends the sleep at once. -/
theorem test_emit_row_period_zero :
    after (exec .emitRow { started (playing 1 { desc 1 true false false [rowR1] with period := 0 }) with
      cycleStart := some 50, now := 57 }) (fun t => (t.deadline, t.reached, t.trace.map TxStart.time)) =
    some (some 50, .ok true, [57]) := by decide

theorem test_emit_blank :
    after (exec .emitBlank blanking) id =
    some { blanking with
      buf := [(0, 0), (1, 0), (2, 0)], deadline := some 550, phase := .sleep, engBusy := true, engIdx := 0,
      trace := [{ time := 507, base := 0, count := 3, frame := [0, 0, 0] }] } := by decide

theorem test_emit_without_cycle_start :
    after (exec .emitRow State.reset) id = some { State.reset with faults := [.unwrittenRead .cycleStart] } := by decide

theorem test_holds :
    [after (exec .holdTxrow (busyAt 0 [])) id, after (exec .holdTxblank (busyAt 0 [])) id,
      after (exec .holdSleep sleeping) id] = [some (busyAt 0 []), some (busyAt 0 []), some sleeping] := by decide

theorem test_wait_held :
    after (exec .waitHeld { State.reset with mode := .wait, btnN := false, now := 500 }) id =
    some { State.reset with mode := .wait, btnN := false, now := 500, cycleStart := some 500,
                            phase := .txwBlank } := by decide

theorem test_wait_rel :
    after (exec .waitRel { State.reset with mode := .wait, selCode := 1, cursor := 5 }) id =
    some { State.reset with selCode := 1, anim := 1, cursor := -2 } := by decide

theorem test_halt_poll :
    after (exec .haltPoll { State.reset with mode := .halt, now := 2000 }) id =
    some { State.reset with mode := .halt, now := 2000, deadline := some 2050, phase := .sleep } := by decide

theorem test_wake :
    after (exec .wake { sleeping with now := 120 }) id = some { sleeping with now := 120, phase := .head } := by decide

theorem test_fault_mode :
    after (exec .faultMode { State.reset with mode := .reserved }) State.faults =
    some [.reservedMode 0b00110000] := by decide

/-! ## The other agents (95 section 2.4, A1 to A5) -/

theorem test_eng_read :
    after (exec .engRead (busyAt 0 [])) id = some (busyAt 1 nibblesA1) := by decide

theorem test_eng_done :
    after (exec .engDone (busyAt 3 nibblesPk1)) id =
    some { busyAt 3 [] with engBusy := false, latched := nibblesPk1 } := by decide

theorem test_btn_edge :
    (after (exec .btnEdge State.reset) State.pending, after (exec .btnEdge { State.reset with pending := true }) id) =
    (some true, some { State.reset with pending := true }) := by decide

theorem test_tick_wraps : after (exec .tick { State.reset with now := -1 }) State.now = some 0 := by decide

/-- A state a run does not reach: a reserved mode, a recorded fault, a busy engine. -/
def faultedState : State :=
  { busyAt 2 nibblesA1 with
    orient := true, pending := true, cursor := 7, anim := 1, mode := .reserved, cycleStart := some 3,
    faults := [.reservedPkop 3] }

/-- The example of 70_reset_and_hazards.md R270, from a faulted state. -/
theorem test_reset :
    after (exec .reset faultedState) (fun t => (t.mode, t.phase, t.pending, t.reverse)) =
      some (.run, .head, false, true) ∧
    after (exec .reset faultedState) (fun t => (t.anim, t.cursor, t.cycleStart)) = some (0, 0, none) ∧
    after (exec .reset faultedState) (fun t => (t.deadline, t.buf, t.faults)) = some (none, [], []) := by decide

theorem test_reset_refuses_bad_configuration :
    refusedConfig (exec .reset { State.reset with cfg := { exampleConfig with poll := 0 } }) = true := by decide

/-! ## The step and the words the host places -/

theorem test_step_takes_the_line :
    after (step { sleeping with script := [{ sets := [.btnN false, .selCode 17, .orient true], agent := .timeBase }] }) id =
    some { sleeping with btnN := false, selCode := 1, orient := true, now := 120 } := by decide

theorem test_step_of_a_faulted_controller :
    after (step { State.reset with faults := [.reservedPkop 3], script := [plainLine .controller] }) id =
    some { State.reset with faults := [.reservedPkop 3] } := by decide

theorem test_placed_words_run :
    ([0x30, 0x08, 0x00, 0x14, 0x10, 0x20].map fun w =>
      after (step (State.reset.withFetchWord 8 w)) fun t => (t.mode, t.phase, t.faults)) =
    [some (.reserved, .head, [.reservedMode 0x30]), some (.wait, .head, []), some (.run, .txwRow, []),
      some (.wait, .txwBlank, []), some (.run, .head, []), some (.halt, .sleep, [])] := by decide

theorem test_placed_words_run_in_the_other_phases :
    ([0x40, 0x42, 0x80, 0x82, 0xC1, 0xC0].map fun w =>
      after (step (State.reset.withFetchWord 8 w)) fun t => (t.phase, t.engBusy, t.trace.length)) =
    [some (.sleep, true, 1), some (.txwRow, true, 0), some (.sleep, true, 1), some (.txwBlank, true, 0),
      some (.head, false, 0), some (.sleep, false, 0)] := by decide

theorem test_placed_words_have_their_vector :
    ([0x30, 0x08, 0x14, 0x40, 0x92, 0xC1, 0xEE, 0xFF].map fun w => (State.reset.withFetchWord 8 w).decodeVector) =
    [.ok 0x30, .ok 0x08, .ok 0x14, .ok 0x40, .ok 0x92, .ok 0xC1, .ok 0xEE, .ok 0xFF] := by decide

/-! ## The buffer -/

theorem test_buffer_canonical_form :
    (Memory.wf 3 [(0, 1), (2, 5)], Memory.wf 3 [(2, 5), (0, 1)], Memory.wf 3 [(1, 5), (1, 6)], Memory.wf 3 [(3, 5)],
      Memory.write [(0, 1), (2, 5)] 1 7) = (true, false, false, false, [(0, 1), (1, 7), (2, 5)]) := by decide

theorem test_buffer_access :
    (Memory.load 3 [(0, 1)] 0, Memory.load 3 [(0, 1)] 2, Memory.load 3 [(0, 1)] 3, Memory.store 3 [] 3 1) =
    (.ok 1, .error (.unwrittenRead (.buf 2)), .error (.indexRange 3), .error (.indexRange 3)) := by decide


/-! ## Witnesses: for each statement with hypotheses, a concrete state and operands that meet all of them -/

/-- A controller's line with a setting before it. -/
def controllerLine : Line := { sets := [.btnN false], agent := .controller }

theorem witness_SelectedBy :
    [0x08, 0x00, 0x14, 0x10, 0x20, 0xC1, 0x42, 0x82, 0xC0, 0x40, 0x80].map (fun dv : Byte => decide (dv &&& 0x30 ≠ 0x30)) =
    List.replicate 11 true := by decide

theorem witness_DecodeAgreesWithEncode :
    encode .evtTake 0x30 = some (8, 0x38) ∧ encode .evtTake 0 = some (8, 0x08) ∧ (0x08 : Nat) &&& 0x30 ≠ 0x30 ∧
    encode .packComp 0 = some (2, 1) := by decide

theorem witness_HeadPriority :
    State.reset.faults = [] ∧ State.reset.phase = .head ∧
    ({ State.reset with mode := .reserved, pending := true } : State).controllerOp = .ok (some .faultMode) ∧
    ({ State.reset with mode := .halt, pending := true } : State).controllerOp = .ok (some .evtTake) ∧
    ({ State.reset with mode := .wait, btnN := false } : State).controllerOp = .ok (some .waitHeld) ∧
    sleeping.phase ≠ .head ∧ ({ sleeping with pending := true } : State).controllerOp = .ok (some .holdSleep) := by decide

theorem witness_ReachedIsWrapSafe :
    sleeping.phase = .sleep ∧ sleeping.deadline = some 120 ∧ ((119 : Time) - 120).toNat = 2 ^ 64 - 1 ∧
    ((2 ^ 63 : Time) - 1).toNat < 2 ^ 63 ∧ State.reset.phase ≠ .sleep := by decide

theorem witness_FaultModeRecordsDv :
    ({ State.reset with mode := .reserved } : State).decodeVector = .ok 0x30 := by decide

theorem witness_WaitRelReselectsAndRestarts :
    ({ State.reset with selCode := 1 } : State).cfg.admitted = true ∧
    exampleConfig.anims[exampleConfig.select 1]?.map Descriptor.multiline = some true := by decide

theorem witness_EmitRowSingleLine :
    (started State.reset).cfg.admitted = true ∧ (started State.reset).cycleStart = some 100 ∧
    (started State.reset).engBusy = false ∧
    (started State.reset).cfg.anims[(started State.reset).anim]?.map Descriptor.multiline = some false := by decide

/-- A multiline animation at its first cursor, engine idle, cycle started. -/
def multilineStart : State := started { State.reset with anim := 1, cursor := -2 }

theorem witness_EmitRowMultiline :
    multilineStart.cfg.admitted = true ∧ multilineStart.cycleStart = some 100 ∧ multilineStart.engBusy = false ∧
    multilineStart.cfg.anims[multilineStart.anim]?.map Descriptor.multiline = some true := by decide

theorem witness_EmitBlankSendsZeros : blanking.cycleStart = some 500 ∧ blanking.engBusy = false := by decide

theorem witness_CommonChecksInOrder :
    State.reset.cycleStart = none ∧
    ({ started State.reset with engBusy := true } : State).cycleStart = some 100 ∧ (busyAt 2 []).engBusy = true := by
  decide

/-- SLEEP with a deadline that holds no value, the controller's line next (log 21). -/
theorem witness_CommonChecksInOrder_sleep :
    ({ sleeping with deadline := none, script := [controllerLine] } : State).cfg.admitted = true ∧
    sleeping.faults = [] ∧ sleeping.phase = .sleep ∧
    after (step { sleeping with deadline := none, script := [controllerLine] }) State.faults =
      some [.unwrittenRead .deadline] := by decide

theorem witness_packs :
    multilineStart.cfg.admitted = true ∧ multilineStart.cfg.anims[multilineStart.anim]?.isSome = true ∧
    multilineStart.engBusy = false ∧ (busyAt 0 []).engBusy = true := by decide

theorem witness_PackedWordsHaveLaneThreeClear :
    ([0, 1, 2].map fun op : BitVec 2 => (multilineStart.pack op).toOption.isSome) = [true, true, true] ∧
    2 < 3 * multilineStart.cfg.n := by decide

theorem witness_RowLayoutIsOneToOne :
    rowOffset (stripMajor (playing 2 (policy 1 false false))).cfg 1 2 2 = 17 ∧
    rowOffset (playing 2 (policy 1 false false)).cfg 1 2 2 = 17 ∧
    rowOffset (playing 2 (policy 1 false false)).cfg 0 1 0 = 3 ∧
    rowOffset (stripMajor (playing 2 (policy 1 false false))).cfg 0 1 0 = 6 := by decide

theorem witness_interleave_bits :
    ((interleave 0x80 0 0 0).getLsbD (4 * 7 + 0), (interleave 0 0 0 0x01).getLsbD (4 * 0 + 3)) = (true, true) := by decide

theorem witness_limits :
    (policy 1 false false).height ≠ 0 ∧ (policy 1 false false).limit = 1 ∧
    (policy 0xFFFF false true).height ≠ 0 ∧ (policy 0xFFFF false true).limit = 2 ^ 17 - 2 := by decide

/-- The cases of EXTRACT at their bounds, for `height = 3, mirror = 1`. -/
theorem witness_ExtractFollowsThePolicy :
    (policy 3 false true).height ≠ 0 ∧ (-1 : Int) < 0 ∧ (policy 3 false true).extract (-1) = .blank ∧
    ((policy 3 false true).limit : Int) ≤ 6 ∧ (policy 3 false true).extract 6 = .blank ∧
    (policy 3 false true).height.toNat ≤ ((3 : Int) % (policy 3 false true).limit).toNat ∧
    (policy 3 false true).extract 3 = .row 2 ∧ (policy 3 false true).extract 5 = .row 0 ∧
    (policy 3 false true).extract 2 = .row 2 ∧ (policy 3 true true).extract 6 = .row 0 := by decide

theorem witness_ExtractPeriodMirrorBounds :
    (policy 3 true false).loop = true ∧ (policy 3 true false).extract 0 = (policy 3 true false).extract 3 ∧
    (policy 3 true false).extract (-1) = .blank ∧ (policy 3 true false).extract (-1 + (3 : Nat)) = .row 2 ∧
    (policy 3 true false).extract (-3) = .blank ∧ (policy 3 true false).extract (-3 + (3 : Nat)) = .row 0 ∧
    (policy 4 false true).mirror = true ∧ (policy 4 false true).extract (4 + 3) = (policy 4 false true).extract (4 - 3 - 1) ∧
    (policy 3 false false).loop = false ∧ (policy 3 false false).extract 3 = .blank := by decide

theorem witness_RowbyteReadsTheRow :
    State.reset.cfg.admitted = true ∧ 2 < (State.reset.cfg.anims[State.reset.anim]?.map fun d => d.height.toNat).getD 0 ∧
    8 < 9 * State.reset.cfg.n := by decide

theorem witness_RowbyteOutOfRangeFaults :
    9 * State.reset.cfg.n ≤ 9 ∧ (State.reset.cfg.anims[State.reset.anim]?.map fun d => d.height.toNat) = some 3 := by decide

theorem witness_AdvanceWrapsOrHalts :
    (policy 3 true false).height ≠ 0 ∧ -2 ≤ (-2 : Cursor).toInt ∧ (-2 : Cursor).toInt < (policy 3 true false).limit ∧
    (2 : Cursor).toInt < (policy 3 true false).limit ∧ ¬((2 : Cursor).toInt + 1 < (policy 3 true false).limit) := by decide

theorem witness_SelectIsTotalWithDefault :
    exampleConfig.admitted = true ∧ (∀ e ∈ exampleConfig.selList, e.1 ≠ 15) ∧ exampleConfig.select 15 = exampleConfig.select 0 ∧
    exampleConfig.select 0 = exampleConfig.selDefault := by decide

/-- A map with a later entry, an entry of code 0 and a second entry of a code. -/
def threeEntries : Config := { exampleConfig with selList := [(1, 1), (0, 1), (5, 1), (1, 0)] }

theorem witness_SelectIsTotalWithDefault_listed :
    threeEntries.admitted = true ∧ threeEntries.selList.lookup 5 = some 1 ∧ threeEntries.select 5 = 1 ∧
    threeEntries.selList = [(1, 1), (0, 1)] ++ (5, 1) :: [(1, 0)] ∧ (∀ e ∈ [((1 : Nat), (1 : Nat)), (0, 1)], e.1 ≠ 5) ∧
    threeEntries.selList.lookup 1 = some 1 ∧ threeEntries.select 1 = 1 ∧ threeEntries.select 0 = 0 := by decide

/-- One configuration for each way to fail 00_scope.md R9. -/
theorem witness_BadConfigurationIsRefused :
    ({ exampleConfig with n := 0 } : Config).n = 0 ∧ ({ exampleConfig with anims := [] } : Config).anims = [] ∧
    (policy 0 false false).height = 0 ∧ 2 ^ 31 ≤ ({ policy 1 false false with period := 0x80000000 } : Descriptor).period.toNat ∧
    (policy 1 false false).rows.length ≠ (policy 1 false false).height.toNat ∧
    rowR1.tail.length ≠ 9 * exampleConfig.n ∧
    ({ exampleConfig with selDefault := 2 } : Config).anims.length ≤ ({ exampleConfig with selDefault := 2 } : Config).select 7 ∧
    ({ exampleConfig with poll := 0 } : Config).poll = 0 ∧ 2 ^ 31 ≤ ({ exampleConfig with poll := 2 ^ 31 } : Config).poll ∧
    ({ exampleConfig with selWidth := 0 } : Config).selWidth = 0 ∧ ({ exampleConfig with tick := 0 } : Config).tick = 0 := by
  decide

/-- The example configuration passes every check, clause by clause. -/
theorem witness_PassesChecks : PassesChecks exampleConfig ∧ 1 ≤ exampleConfig.selWidth ∧
    1 ≤ exampleConfig.tick := by
  have sel : ∀ code, exampleConfig.select code = if code = 1 then 1 else 0 := fun code => by
    by_cases h : code = 1
    · subst h; rfl
    · have hl : exampleConfig.selList.lookup code = none := by simp [exampleConfig, h]
      rw [if_neg h, Config.select_of_lookup_none hl]; rfl
  refine ⟨⟨by decide, by decide, by decide, fun code => ?_, fun code hc => ?_, by decide, by decide⟩, by decide, by decide⟩
  · rw [sel]; split <;> decide
  · rw [sel, if_neg (Ne.symm (hc (1, 1) (by decide)))]; rfl

theorem witness_EngReadSendsTheNextWord :
    (busyAt 2 []).engBusy = true ∧ (busyAt 2 []).engIdx < 3 * (busyAt 2 []).cfg.n ∧
    (busyAt 2 []).buf.read (busyAt 2 []).engIdx = some 0x42354235 := by decide

theorem witness_EngDoneLatchesAndFrees :
    (busyAt 3 nibblesPk1).engBusy = true ∧ (busyAt 3 nibblesPk1).engIdx = 3 * (busyAt 3 nibblesPk1).cfg.n := by decide

theorem witness_EngineEventsNeedTheirCondition :
    ¬(State.reset.engBusy = true ∧ State.reset.engIdx < 3 * State.reset.cfg.n) ∧
    ¬((busyAt 2 []).engBusy = true ∧ (busyAt 2 []).engIdx = 3 * (busyAt 2 []).cfg.n) ∧
    ({ busyAt 2 [] with buf := [] } : State).buf.read 2 = none := by decide

theorem witness_StripsReceiveMsbFirst :
    (serialise (interleave 0x22 0x55 0x88 0)).map (fun nib => (nib.getLsbD 0, nib.getLsbD 1, nib.getLsbD 2)) =
    [(false, false, true), (false, true, false), (true, false, false), (false, true, false),
      (false, false, true), (false, true, false), (true, false, false), (false, true, false)] := by decide

theorem witness_SettingsDriveTheInputs : 15 < 2 ^ State.reset.cfg.selWidth := by decide

theorem witness_StepRunsTheDecodedOperation :
    ({ State.reset with mode := .wait, script := [controllerLine] } : State).cfg.admitted = true ∧
    (({ State.reset with mode := .wait, script := [] } : State).applySettings controllerLine.sets).decodeVector = .ok 0x14 ∧
    decodeDv 0x14 = some .waitHeld := by decide

/-- A state of each phase with its decode vector: the layout's values at both ends of every field. -/
theorem witness_VectorLayout :
    (started State.reset).reached = .ok false ∧ (started State.reset).decodeVector = .ok 0b01000000 ∧
    VectorLayout (started State.reset) false 0b01000000 ∧ VectorLayout blanking false 0b10010100 ∧
    ({ sleeping with now := 120, mode := .halt, pending := true } : State).reached = .ok true ∧
    VectorLayout { sleeping with now := 120, mode := .halt, pending := true } true 0b11101001 ∧
    VectorLayout { State.reset with mode := .reserved, engBusy := true } false 0b00110010 := by
  unfold VectorLayout; decide

theorem witness_StepRunsTheAgentsEvent :
    ({ busyAt 3 [] with script := [plainLine .engine] } : State).script = plainLine .engine :: [] ∧
    (busyAt 3 []).cfg.admitted = true ∧ (busyAt 3 []).engIdx = 3 * (busyAt 3 []).cfg.n ∧
    (busyAt 2 []).engIdx < 3 * (busyAt 2 []).cfg.n ∧ State.reset.engBusy = false := by decide

theorem witness_EmptyScriptTakesAFreeLine : State.reset.script = [] := by decide

theorem witness_FaultedControllerIsQuiescent :
    ({ State.reset with faults := [.reservedPkop 3], script := [plainLine .timeBase] } : State).faults ≠ [] ∧
    State.reset.cfg.admitted = true := by decide

/-- For the three statements that read the state an operation answers. -/
theorem witness_frames :
    Instr.emitRow ≠ .reset ∧ (after (exec .emitRow (started State.reset)) State.engBusy) = some true ∧
    (after (exec .emitRow (busyAt 0 [])) State.faults) = some [.unwrittenRead .cycleStart] := by decide

theorem witness_EveryOperationAnswersOrIsRefused :
    State.reset.cfg.admitted = true ∧ (policy 1 false false).height ≠ 0 ∧ (policy 0 true false).height = 0 ∧
    ({ exampleConfig with poll := 0 } : Config).admitted = false ∧
    refusedConfig (exec (.extract (policy 0 true false) 3) State.reset) = true := by decide

theorem witness_StepKeepsInvariant :
    (busyAt 1 nibblesA1).Inv ∧ (busyAt 3 nibblesPk1).Inv ∧ blanking.Inv ∧ multilineStart.Inv :=
  ⟨by decide, by decide, by decide, by decide⟩

/-- One state for each row of the transition table of R213, in its order. -/
theorem witness_ControllerFollowsTheTransitionTable :
    ([{ State.reset with pending := true }, State.reset, started { State.reset with cursor := 2 },
      { State.reset with mode := .wait, btnN := false }, blanking, { State.reset with mode := .wait },
      { State.reset with mode := .halt }, { sleeping with now := 120 },
      { busyAt 0 [] with phase := .txwRow, cycleStart := some 100 },
      { busyAt 0 [] with mode := .wait, phase := .txwBlank, cycleStart := some 100 }, sleeping].map fun s : State =>
        decide s.Inv) = List.replicate 11 true := by decide

theorem witness_FramesAreNeverTorn :
    (busyAt 1 nibblesA1).HandoffOk ∧ (busyAt 1 nibblesA1).TraceOk ∧
    ({ busyAt 1 nibblesA1 with latched := nibblesPk1 } : State).LatchOk ∧
    after (step { busyAt 1 nibblesA1 with script := [plainLine .engine] }) State.engIdx = some 2 := by decide

theorem witness_StepKeepsBufferCanonical :
    (busyAt 0 []).buf.wf (busyAt 0 []).cfg.bufWords = true ∧
    after (step { busyAt 0 [] with script := [plainLine .timeBase] }) State.now = some 120 := by decide

theorem witness_DrainLatchesTheFrame :
    (busyAt 0 []).cfg.admitted = true ∧ (busyAt 0 []).engBusy = true ∧ (busyAt 0 []).engIdx = 0 ∧ (busyAt 0 []).sent = [] ∧
    (List.range (3 * (busyAt 0 []).cfg.n)).map (busyAt 0 []).buf.read =
      [0x42124212, 0x06450645, 0x42354235].map (some : Word → Option Word) ∧
    ({ busyAt 0 [] with script := drainLines 3 } : State).script = drainLines (3 * exampleConfig.n) ++ [] := by decide

theorem witness_SleepEndsExactlyAtDeadline :
    sleeping.cfg.admitted = true ∧ sleeping.faults = [] ∧ sleeping.phase = .sleep ∧ sleeping.mode ≠ .reserved ∧
    sleeping.deadline = some 120 ∧ ((120 : Time) - sleeping.now).toNat < 2 ^ 63 ∧ 1 ≤ ((120 : Time) - sleeping.now).toNat ∧
    ({ sleeping with script := ticks 1 } : State).script = ticks 1 ++ [] := by decide

/-! ## The fairness premises of 70_reset_and_hazards.md R281 -/

/-- A sleep under ticks alone: `NOW` wraps past `DEADLINE` for ever, so the controller is held again and again. -/
def tickRun (k : Nat) : State := { sleeping with now := 119 + BitVec.ofNat 64 k }

/-- The hypotheses of hold_is_lifted are met by a fair run that begins in a hold. -/
theorem witness_hold_is_lifted :
    FairRun tickRun (fun _ => plainLine .timeBase) ∧ (tickRun 0).Inv ∧ (tickRun 0).HeldBy .holdSleep := by
  have back : ∀ k, tickRun (k * 2 ^ 64) = tickRun 0 := fun k => by
    have : BitVec.ofNat 64 (k * 2 ^ 64) = 0 := by apply BitVec.eq_of_toNat_eq; simp
    unfold tickRun; rw [this]; rfl
  have held : (tickRun 0).HeldBy .holdSleep := ⟨by decide, by decide⟩
  refine ⟨⟨fun k => ?_, fun k => ⟨k, le_rfl, rfl⟩, fun k => ⟨k, le_rfl, .inl rfl⟩, fun k =>
    ⟨k * 2 ^ 64, by omega, .inl fun h => h.2 .holdSleep (by rw [back]; exact held)⟩⟩, by decide, held⟩
  have hn : (119 : Time) + BitVec.ofNat 64 (k + 1) = 119 + BitVec.ofNat 64 k + 1 := by
    rw [BitVec.ofNat_add]; exact (BitVec.add_assoc _ _ _).symm
  unfold tickRun
  rw [hn]
  rfl

/-- Without premise 2 a hold can last for ever: a busy engine that takes no step. -/
theorem test_hold_can_last_without_the_engine :
    ∃ (r : Nat → State) (line : Nat → Line), IsRun r line ∧ TickFair line ∧ ControllerFair r line ∧
      ∀ k, (r k).HeldBy .holdTxrow := by
  have held : ∀ now, ({ busyAt 1 nibblesA1 with phase := .txwRow, cycleStart := some 100, now := now } : State).HeldBy
      .holdTxrow := fun now => heldBy_iff.2 ⟨rfl, show Mode.run ≠ .reserved by decide, .inl ⟨rfl, rfl, rfl⟩⟩
  refine ⟨fun k => { busyAt 1 nibblesA1 with phase := .txwRow, cycleStart := some 100, now := BitVec.ofNat 64 k },
    fun _ => plainLine .timeBase, fun k => ?_, fun k => ⟨k, le_rfl, rfl⟩,
    fun k => ⟨k, le_rfl, .inl fun h => h.2 .holdTxrow (held _)⟩, fun k => held _⟩
  simp only [BitVec.ofNat_add]
  rfl

end Sys2Proof.Tests
end

/-! The family of 00_scope.md: which configurations have a run, which operations answer, and what a step on the
controller's line runs. -/
namespace Sys2Proof

/-! ## The admitted configurations (00_scope.md R9) -/

/-- A code that no entry of the map lists selects what code 0 selects, the default. -/
theorem Config.select_of_unlisted {c : Config} {code : Nat} (h : ∀ e ∈ c.selList, e.1 ≠ code) :
    c.select code = c.select 0 :=
  Config.select_of_lookup_none (List.lookup_eq_none_iff.2 fun e he => by simpa using (h e he).symm)

namespace Machine

/-- The descriptor's checks as `PassesChecks` writes them out. -/
theorem forall_wf_iff {c : Config} : (∀ d ∈ c.anims, d.wf c = true) ↔
    ∀ d ∈ c.anims, d.height ≠ 0 ∧ d.period.toNat < 2 ^ 31 ∧ d.rows.length = d.height.toNat ∧
      ∀ row ∈ d.rows, row.length = 9 * c.n :=
  forall₂_congr fun _ _ => Descriptor.wf_iff

/-- A configuration is admitted exactly when it passes the checks of R9, and `SEL_WIDTH` and `TICK` are positive. -/
theorem admitted_iff_passesChecks {c : Config} :
    c.admitted = true ↔ PassesChecks c ∧ 1 ≤ c.selWidth ∧ 1 ≤ c.tick := by
  constructor
  · intro h
    obtain ⟨hn, hanims, hwf, hwidth, -, -, htick, hpoll, hpoll'⟩ := Config.admitted_iff.1 h
    exact ⟨⟨hn, List.ne_nil_of_length_pos hanims, forall_wf_iff.1 hwf, Config.select_lt h,
      fun _ => Config.select_of_unlisted, hpoll, hpoll'⟩, hwidth, htick⟩
  · rintro ⟨⟨hn, hanims, hwf, hselect, -, hpoll, hpoll'⟩, hwidth, htick⟩
    exact Config.admitted_iff.2 ⟨hn, List.length_pos_iff.2 hanims, forall_wf_iff.2 hwf, hwidth, hselect 0,
      fun e _ => hselect e.1, htick, hpoll, hpoll'⟩

/-- RESET under a configuration that is not admitted is refused (70_reset_and_hazards.md R270). -/
theorem exec_reset_of_not_admitted {s : State} (h : s.cfg.admitted = false) :
    exec .reset s = .refused .configNotAdmitted := by
  simp only [exec, execReset, h, Bool.false_eq_true, if_false]

/-- Settles O37: an admitted configuration passes every check, so one that fails a check is not admitted. -/
theorem badConfigurationIsRefused : Obligations.BadConfigurationIsRefused := by
  refine ⟨fun s hbad => ?_, fun c => admitted_iff_passesChecks⟩
  have hnot : s.cfg.admitted = false := by
    rw [Bool.eq_false_iff]
    intro hadm
    obtain ⟨⟨hn, hanims, hdesc, hselect, -, hpoll, hpoll'⟩, hwidth, htick⟩ := admitted_iff_passesChecks.1 hadm
    rcases hbad with h | h | ⟨d, hd, h⟩ | ⟨code, h⟩ | h | h | h | h
    · omega
    · exact hanims h
    · obtain ⟨hheight, hperiod, hcount, hrows⟩ := hdesc d hd
      rcases h with h | h | h | ⟨row, hrow, h⟩
      · exact hheight h
      · omega
      · exact h hcount
      · exact h (hrows row hrow)
    · exact absurd (hselect code) (by omega)
    all_goals omega
  exact ⟨step_of_not_admitted hnot, exec_reset_of_not_admitted hnot⟩

/-! ## Every operation answers or is refused -/

/-- RESET under an admitted configuration answers a next state. -/
theorem exec_reset_isNext {s : State} (h : s.cfg.admitted = true) : ∃ t, exec .reset s = .next t := by
  simp only [exec, execReset, h, if_true]
  exact settle_isNext _ _

/-- ENG.READ answers a next state, enabled or not. -/
theorem exec_engRead_isNext (s : State) : ∃ t, exec .engRead s = .next t := by
  simp only [exec, execEngRead]
  split
  · exact settle_isNext _ _
  · exact ⟨s, rfl⟩

/-- ENG.DONE answers a next state, enabled or not. -/
theorem exec_engDone_isNext (s : State) : ∃ t, exec .engDone s = .next t := by
  simp only [exec, execEngDone]
  split <;> exact ⟨_, rfl⟩

/-- EXTRACT of a descriptor of height 0 is refused (92_eei_decisions.md D23). -/
theorem exec_extract_of_height_zero {d : Descriptor} (h : d.height = 0) (y : Int) (s : State) :
    exec (.extract d y) s = .refused .configNotAdmitted := if_pos h

/-- EXTRACT of every other descriptor answers a next state. -/
theorem exec_extract_isNext {d : Descriptor} (h : d.height ≠ 0) (y : Int) (s : State) :
    ∃ t, exec (.extract d y) s = .next t := ⟨_, if_neg h⟩

/-- Every operation that is not refused answers a next state: at once, by settling, or by its condition. -/
theorem exec_isNext {i : Instr} {s : State} (hreset : i = .reset → s.cfg.admitted = true)
    (hextract : ∀ (d : Descriptor) (y : Int), i = .extract d y → d.height ≠ 0) : ∃ t, exec i s = .next t := by
  cases i with
  | reset => exact exec_reset_isNext (hreset rfl)
  | extract d y => exact exec_extract_isNext (hextract d y rfl) y s
  | engRead => exact exec_engRead_isNext s
  | engDone => exact exec_engDone_isNext s
  | faultMode | waitRel | emitRow | emitBlank | packSingle | packComp | packBlank | rowbyte =>
    exact settle_isNext _ _
  | faultPkop => exact settle_isNext s (s.pack 3#2)
  | evtTake | runStart | waitHeld | haltPoll | holdTxrow | holdTxblank | wake | holdSleep | spread | interleave
  | limit | start | advance | select | btnEdge | tick => exact ⟨_, rfl⟩

/-- Settles O52: `exec_isNext` for what answers, and the two refusals. -/
theorem everyOperationAnswersOrIsRefused : Obligations.EveryOperationAnswersOrIsRefused :=
  ⟨fun _ _ => exec_isNext, fun _ => exec_reset_of_not_admitted, fun _ y s h => exec_extract_of_height_zero h y s⟩

/-! ## The decode vector and the controller's line (30_encoding.md R101, R103) -/

/-- A flag is bit 0 of its byte. -/
@[simp] theorem getElem_flagBit (b : Bool) (k : Nat) (hk : k < 8) : (flagBit b)[k] = (decide (k = 0) && b) := by
  cases b <;> simp [flagBit]

/-! Each field of the decode vector is read back from its bits. -/

section Fields
variable (phase : Phase) (mode : Mode) (pending pressed busy reached : Bool)

theorem dvOf_phase : (dvOf phase mode pending pressed busy reached).extractLsb' 6 2 = phase.bits := by
  ext k hk
  obtain rfl | rfl : k = 0 ∨ k = 1 := by omega
  · simp [dvOf]
  · simp [dvOf]

theorem dvOf_mode : (dvOf phase mode pending pressed busy reached).extractLsb' 4 2 = mode.bits := by
  ext k hk
  obtain rfl | rfl : k = 0 ∨ k = 1 := by omega
  · simp [dvOf]
  · simp [dvOf]

theorem dvOf_pending : (dvOf phase mode pending pressed busy reached).getLsbD 3 = pending := by simp [dvOf]
theorem dvOf_pressed : (dvOf phase mode pending pressed busy reached).getLsbD 2 = pressed := by simp [dvOf]
theorem dvOf_busy : (dvOf phase mode pending pressed busy reached).getLsbD 1 = busy := by simp [dvOf]
theorem dvOf_reached : (dvOf phase mode pending pressed busy reached).getLsbD 0 = reached := by simp [dvOf]
end Fields

/-- The decode vector of a state's fields is laid out as R101 says. -/
theorem vectorLayout_dvOf (s : State) (t : Bool) :
    VectorLayout s t (dvOf s.phase s.mode s.pending s.pressed s.txBusy t) :=
  ⟨dvOf_phase .., dvOf_mode .., dvOf_pending .., dvOf_pressed .., dvOf_busy .., dvOf_reached ..⟩

/-- Where `REACHED` answers, so does the decode vector, and it is laid out as R101 says. -/
theorem decodeVector_layout {s : State} {t : Bool} (h : s.reached = .ok t) :
    ∃ dv, s.decodeVector = .ok dv ∧ VectorLayout s t dv :=
  ⟨_, decodeVector_ok.2 ⟨t, h, rfl⟩, vectorLayout_dvOf s t⟩

/-- The turn of a controller with no recorded fault runs the operation its decode vector selects. -/
theorem turn_controller {s : State} {dv : Byte} {i : Instr} (hf : s.faults = []) (hdv : s.decodeVector = .ok dv)
    (hi : decodeDv dv = some i) : s.turn .controller = exec i s := by
  simp only [State.turn, State.opOf, controllerOp_of_faultFree hf hdv, hi]

/-- A step takes the first line of its script, applies its settings and gives the line's agent its turn. -/
theorem step_of_script {s : State} {line : Line} {rest : List Line} (ha : s.cfg.admitted = true)
    (hs : s.script = line :: rest) :
    step s = (({ s with script := rest } : State).applySettings line.sets).turn line.agent := by
  rw [step_of_admitted ha, nextLine_cons hs]

/-- Settles O45: the settings record no fault, so the controller's turn runs what the vector selects. -/
theorem stepRunsTheDecodedOperation : Obligations.StepRunsTheDecodedOperation := by
  refine ⟨fun s t => decodeVector_layout, fun s sets rest dv i ha hs hf hdv hi => ?_⟩
  rw [step_of_script ha hs]
  exact turn_controller (by simp [hf]) hdv hi

end Machine
end Sys2Proof

/-! The family of 10_state.md: what RESET leaves in every register, and which operations may write which register. -/
namespace Sys2Proof

/-- START as the cursor register holds it (43_playback_controller.md R191). -/
theorem Descriptor.ofInt_startCursor (d : Descriptor) :
    BitVec.ofInt 32 d.startCursor = if d.multiline then -2 else 0 := by
  unfold Descriptor.startCursor; split <;> rfl

namespace Machine

/-! ## RESET (10_state.md R51) -/

/-- Under an admitted configuration the reset block answers, so RESET has its effect and raises no fault. -/
theorem exec_reset_of_resetBlock {s t : State} (h : s.cfg.admitted = true) (ht : s.resetBlock = .ok t) :
    exec .reset s = .next t := by
  simp only [exec, execReset, h, if_true, ht, settle_ok]

/-- Settles O36: the selected animation is in the table, so the reset block answers; `ENG_IDX` is a remainder by
`3N + 1`. -/
theorem resetInitialisesEveryRegister : Obligations.ResetInitialisesEveryRegister := by
  intro s hadm
  have hd := List.getElem?_eq_getElem (Config.select_lt hadm s.selCode)
  refine ⟨_, Config.freeNow s.draws, Config.freeEngIdx s.draws % (s.cfg.bufWords + 1), hd,
    Nat.lt_succ_iff.1 (Nat.mod_lt _ (Nat.succ_pos _)), ?_⟩
  rw [← Descriptor.ofInt_startCursor]
  exact exec_reset_of_resetBlock hadm (resetBlock_ok.2 ⟨_, hd, rfl⟩)

/-- Settles O53: O36 at the reset state, where code 0 selects the single-line animation 0. -/
theorem resetStateIsAResetEvent : Obligations.ResetStateIsAResetEvent := by
  obtain ⟨d, now, idx, hd, -, hexec⟩ := resetInitialisesEveryRegister State.reset (by decide)
  cases hd
  exact ⟨now, idx, hexec⟩

/-- Settles O54: the reset state is idle, at HEAD in RUN, with the first row of animation 0 under its cursor, an empty
buffer and nothing sent, shown or recorded. -/
theorem resetSatisfiesInvariant : Obligations.ResetSatisfiesInvariant := by
  have hadm : State.reset.cfg.admitted = true := by decide
  have hcontrol : State.reset.ControlOk := by decide
  have hcursor : State.reset.CursorOk := by decide
  have hinputs : State.reset.InputsOk := by decide
  have hhandoff : State.reset.HandoffOk := ⟨fun hbusy => absurd hbusy (by decide), fun _ => rfl⟩
  exact ⟨⟨hadm, hcontrol, hcursor, hinputs, ⟨rfl, rfl⟩, hhandoff, rfl⟩, .inl rfl, rfl⟩

/-! ## The writers of each register (10_state.md R31 to R50) -/

/-- `s` with the registers that the rules let the operation `i`, not RESET, write taken from `t`: one line per register,
with its writers.
The configuration, the inputs, REVERSE, the script and the draw counter have no writer here; the fault set and the
combinational output are no register of the rules and are taken from `t`. -/
def State.writtenBy (i : Instr) (s t : State) : State :=
  { s with
    mode := if i = .evtTake ∨ i = .waitRel ∨ i = .emitRow then t.mode else s.mode
    phase := if i = .runStart ∨ i = .waitHeld ∨ i = .emitRow ∨ i = .emitBlank ∨ i = .haltPoll ∨ i = .wake
      then t.phase else s.phase
    pending := if i = .btnEdge ∨ i = .evtTake then t.pending else s.pending
    cursor := if i = .emitRow ∨ i = .waitRel then t.cursor else s.cursor
    anim := if i = .waitRel then t.anim else s.anim
    cycleStart := if i = .runStart ∨ i = .waitHeld then t.cycleStart else s.cycleStart
    deadline := if i = .emitRow ∨ i = .emitBlank ∨ i = .haltPoll then t.deadline else s.deadline
    buf := if s.engBusy = false ∧
      (i = .emitRow ∨ i = .emitBlank ∨ i = .packSingle ∨ i = .packComp ∨ i = .packBlank) then t.buf else s.buf
    now := if i = .tick then t.now else s.now
    engBusy := if i = .emitRow ∨ i = .emitBlank ∨ i = .engDone then t.engBusy else s.engBusy
    engIdx := if i = .emitRow ∨ i = .emitBlank ∨ i = .engRead then t.engIdx else s.engIdx
    sent := if i = .engRead ∨ i = .engDone then t.sent else s.sent
    latched := if i = .engDone then t.latched else s.latched
    trace := if i = .emitRow ∨ i = .emitBlank then t.trace else s.trace
    faults := t.faults
    combOut := t.combOut }

/-- An operation that leaves the state as it is writes no register. -/
theorem writtenBy_self (i : Instr) (s : State) : s = s.writtenBy i s := by
  simp only [State.writtenBy, ite_self]

/-- An operation that raises a fault writes no register (60_exceptions.md R240). -/
theorem writtenBy_raise (i : Instr) (s : State) (f : Fault) : s.raise f = s.writtenBy i (s.raise f) := by
  simp only [State.writtenBy, State.raise, ite_self]

/-- A combinational function that shows its value writes no register. -/
theorem writtenBy_shows (i : Instr) (s : State) (v : CombValue) : s.shows v = s.writtenBy i (s.shows v) := by
  simp only [State.writtenBy, shows_eq, ite_self]

/-- An operation that ends by settling writes its own registers if its effect does: a raised fault writes none. -/
theorem writtenBy_of_settle {i : Instr} {s t : State} {r : Except Fault State} (h : s.settle r = .next t)
    (heffect : ∀ u, r = .ok u → u = s.writtenBy i u) : t = s.writtenBy i t := by
  rcases settle_next.1 h with hok | ⟨f, -, rfl⟩
  · exact heffect t hok
  · exact writtenBy_raise i s f

/-- A pack under the check of an idle engine answers with the buffer changed at most. -/
theorem checkBufFree_pack_ok {s t : State} {op : BitVec 2} (h : (do s.checkBufFree; s.pack op) = Except.ok t) :
    s.engBusy = false ∧ t = { s with buf := t.buf } := by
  obtain ⟨_, hfree, hpack⟩ := bind_ok.1 h
  exact ⟨checkBufFree_ok.1 hfree, (pack_ok hpack).1⟩

/-- A pack run on its own writes the buffer alone, under an idle engine. -/
theorem writtenBy_of_pack {i : Instr} {s t : State} {op : BitVec 2}
    (hi : i = .packSingle ∨ i = .packComp ∨ i = .packBlank)
    (h : s.settle (do s.checkBufFree; s.pack op) = .next t) : t = s.writtenBy i t := by
  refine writtenBy_of_settle h fun u hu => ?_
  obtain ⟨hfree, hbuf⟩ := checkBufFree_pack_ok hu
  rw [hbuf]
  rcases hi with rfl | rfl | rfl <;> simp [State.writtenBy, hfree]

/-- EMIT.ROW writes its own registers. -/
theorem writtenBy_emitRow {s t : State} (h : s.emitRow = .ok t) : t = s.writtenBy .emitRow t := by
  obtain ⟨_, _, _, _, _, hidle, _, _, _, rfl⟩ := emitRow_ok.1 h
  simp [State.writtenBy, hidle]

/-- EMIT.BLANK writes its own registers. -/
theorem writtenBy_emitBlank {s t : State} (h : s.emitBlank = .ok t) : t = s.writtenBy .emitBlank t := by
  obtain ⟨_, _, _, _, hidle, _, _, rfl⟩ := emitBlank_ok.1 h
  simp [State.writtenBy, hidle]

/-- WAIT.REL writes its own registers. -/
theorem writtenBy_leaveWait {s t : State} (h : s.leaveWait = .ok t) : t = s.writtenBy .waitRel t := by
  obtain ⟨_, _, rfl⟩ := leaveWait_ok.1 h
  simp [State.writtenBy]

/-- ENG.READ writes its own registers, enabled or not. -/
theorem writtenBy_engRead {s t : State} (h : exec .engRead s = .next t) : t = s.writtenBy .engRead t := by
  simp only [exec, execEngRead] at h
  split at h
  · refine writtenBy_of_settle h fun u hu => ?_
    obtain ⟨w, -, hw⟩ := bind_ok.1 hu
    cases hw
    simp [State.writtenBy]
  · cases h
    exact writtenBy_self _ s

/-- ENG.DONE writes its own registers, enabled or not. -/
theorem writtenBy_engDone {s t : State} (h : exec .engDone s = .next t) : t = s.writtenBy .engDone t := by
  simp only [exec, execEngDone] at h
  split at h
  · cases h
    simp [State.writtenBy]
  · cases h
    exact writtenBy_self _ s

/-- EXTRACT writes no register where it answers. -/
theorem writtenBy_extract {d : Descriptor} {y : Int} {s t : State} (h : exec (.extract d y) s = .next t) :
    t = s.writtenBy (.extract d y) t := by
  simp only [exec, execExtract] at h
  split at h
  · cases h
  · cases h
    exact writtenBy_shows ..

/-- An operation other than RESET that answers a next state writes only the registers whose rules list it. -/
theorem writtenBy_of_exec {i : Instr} {s t : State} (hi : i ≠ .reset) (h : exec i s = .next t) :
    t = s.writtenBy i t := by
  cases i with
  | reset => exact absurd rfl hi
  | emitRow => exact writtenBy_of_settle h fun _ => writtenBy_emitRow
  | emitBlank => exact writtenBy_of_settle h fun _ => writtenBy_emitBlank
  | waitRel => exact writtenBy_of_settle h fun _ => writtenBy_leaveWait
  | packSingle => exact writtenBy_of_pack (.inl rfl) h
  | packComp => exact writtenBy_of_pack (.inr (.inl rfl)) h
  | packBlank => exact writtenBy_of_pack (.inr (.inr rfl)) h
  | engRead => exact writtenBy_engRead h
  | engDone => exact writtenBy_engDone h
  | faultMode =>
    refine writtenBy_of_settle h fun u hu => ?_
    obtain ⟨_, -, hdv⟩ := bind_ok.1 hu
    cases hdv
  | faultPkop => exact writtenBy_of_settle (r := s.pack 3#2) h fun _ hu => nomatch hu
  | rowbyte ref o =>
    refine writtenBy_of_settle h fun u hu => ?_
    obtain ⟨b, -, hb⟩ := bind_ok.1 hu
    cases hb
    exact writtenBy_shows ..
  | extract d y => exact writtenBy_extract h
  | spread | interleave | limit | start | advance | select =>
    cases h
    exact writtenBy_shows ..
  | holdTxrow | holdTxblank | holdSleep =>
    cases h
    exact writtenBy_self ..
  | evtTake | runStart | waitHeld | haltPoll | wake | btnEdge | tick =>
    cases h
    simp [State.writtenBy, State.takeButtonEvent]

/-- A register that is taken from the next state only under `p`, and differs there, has `p`. -/
theorem writer_of_ne {α : Type} {p : Prop} [Decidable p] {new old : α} (h : new = if p then new else old)
    (hne : new ≠ old) : p :=
  by_contra fun hp => hne (h.trans (if_neg hp))

/-- Settles O50: each register's line of `State.writtenBy`. -/
theorem registersHaveOnlyTheirWriters : Obligations.RegistersHaveOnlyTheirWriters := by
  intro i s t h hi
  have hw := writtenBy_of_exec hi h
  exact ⟨writer_of_ne (congrArg State.mode hw), writer_of_ne (congrArg State.phase hw),
    writer_of_ne (congrArg State.pending hw), writer_of_ne (congrArg State.cursor hw),
    writer_of_ne (congrArg State.anim hw), (congrArg State.reverse hw :), writer_of_ne (congrArg State.cycleStart hw),
    writer_of_ne (congrArg State.deadline hw), writer_of_ne (congrArg State.buf hw),
    writer_of_ne (congrArg State.now hw), writer_of_ne (congrArg State.engBusy hw),
    writer_of_ne (congrArg State.engIdx hw), writer_of_ne (congrArg State.trace hw)⟩

/-- Settles O51: RESET by its effect (O36), which answers under an admitted configuration only; every other operation by
`State.writtenBy`, which takes none of the five from the next state. -/
theorem romsAndInputsAreNeverWritten : Obligations.RomsAndInputsAreNeverWritten := by
  intro i s t h
  by_cases hi : i = .reset
  · subst hi
    cases hadm : s.cfg.admitted with
    | false =>
      rw [exec_reset_of_not_admitted hadm] at h
      cases h
    | true =>
      obtain ⟨d, now, idx, -, -, hexec⟩ := resetInitialisesEveryRegister s hadm
      rw [hexec] at h
      cases h
      exact ⟨rfl, rfl, rfl, rfl, rfl⟩
  · have hw := writtenBy_of_exec hi h
    exact ⟨(congrArg State.cfg hw :), (congrArg State.btnN hw :), (congrArg State.selCode hw :),
      (congrArg State.orient hw :), (congrArg State.script hw :)⟩

end Machine
end Sys2Proof

/-! The family of 20_memory.md: every step keeps BUF in canonical form, and a step with an empty script is that of a
line. -/
namespace Sys2Proof.Machine

/-! ## What a step runs -/

/-- The settings and the line taken change inputs, script and draws alone; what follows is some agent's turn. -/
theorem step_next {s t : State} (h : step s = .next t) :
    ∃ (a : Agent) (sc : List Line) (k : Nat) (b o : Bool) (c : Nat),
      ({ s with script := sc, draws := k, btnN := b, selCode := c, orient := o } : State).turn a = .next t := by
  cases hadm : s.cfg.admitted with
  | false =>
    rw [step_of_not_admitted hadm] at h
    cases h
  | true =>
    obtain ⟨sc, k, hline⟩ := nextLine_eq s
    obtain ⟨b, c, o, hsets⟩ := applySettings_eq s.nextLine.2 s.nextLine.1.sets
    rw [step_of_admitted hadm, hsets, hline] at h
    exact ⟨_, sc, k, b, o, c, h⟩

/-- A turn that answers ran an operation, had none to run, or raised a fault. -/
theorem turn_next {s t : State} {a : Agent} (h : s.turn a = .next t) :
    (∃ i, exec i s = .next t) ∨ t = s ∨ ∃ f, t = s.raise f := by
  rcases turn_cases s a with ⟨i, -, hturn⟩ | ⟨-, hturn⟩ | ⟨f, -, hturn⟩ <;> rw [hturn] at h
  · exact .inl ⟨i, h⟩
  · cases h
    exact .inr (.inl rfl)
  · cases h
    exact .inr (.inr ⟨f, rfl⟩)

/-- Settles O47: the free line the step draws, placed in the script, is taken alike. -/
theorem emptyScriptTakesAFreeLine : Obligations.EmptyScriptTakesAFreeLine := by
  intro s hs
  have hplaced := nextLine_cons (s := { s with script := [Config.freeLine s.draws], draws := s.draws + 1 }) rfl
  refine ⟨Config.freeLine s.draws, ?_⟩
  unfold step
  rw [nextLine_nil hs, hplaced, ← hs]

/-! ## The canonical form of BUF (20_memory.md R70, R71) -/

/-- A RESET that answers leaves no word of BUF with a value (10_state.md R51). -/
theorem buf_of_exec_reset {s t : State} (h : exec .reset s = .next t) : t.buf = [] := by
  cases hadm : s.cfg.admitted with
  | false =>
    rw [exec_reset_of_not_admitted hadm] at h
    cases h
  | true =>
    obtain ⟨_, _, _, -, -, hexec⟩ := resetInitialisesEveryRegister s hadm
    rw [hexec] at h
    cases h
    rfl

section KeepsCanonical
variable {s t : State} (hwf : s.buf.wf s.cfg.bufWords = true)
include hwf

/-- An operation that ends by settling keeps the canonical form if its effect does: a raised fault leaves BUF alone. -/
theorem buf_wf_of_settle {r : Except Fault State} (h : s.settle r = .next t)
    (heffect : ∀ u, r = .ok u → u.buf.wf s.cfg.bufWords = true) : t.buf.wf s.cfg.bufWords = true := by
  rcases settle_next.1 h with hok | ⟨f, -, rfl⟩
  · exact heffect t hok
  · exact hwf

/-- EMIT.ROW leaves in BUF what its pack wrote. -/
theorem buf_wf_of_emitRow (h : s.emitRow = .ok t) : t.buf.wf s.cfg.bufWords = true := by
  obtain ⟨_, _, _, _, -, -, -, hpack, -, rfl⟩ := emitRow_ok.1 h
  obtain ⟨-, -, hkeeps⟩ := pack_ok hpack
  exact hkeeps hwf

/-- EMIT.BLANK leaves in BUF what its blank fill wrote. -/
theorem buf_wf_of_emitBlank (h : s.emitBlank = .ok t) : t.buf.wf s.cfg.bufWords = true := by
  obtain ⟨_, _, _, -, -, hpack, -, rfl⟩ := emitBlank_ok.1 h
  obtain ⟨-, -, hkeeps⟩ := pack_ok (op := pkOpOfBlank) hpack
  exact hkeeps hwf

/-- A pack run on its own keeps the canonical form. -/
theorem buf_wf_of_pack {op : BitVec 2} (h : s.settle (do s.checkBufFree; s.pack op) = .next t) :
    t.buf.wf s.cfg.bufWords = true := by
  refine buf_wf_of_settle hwf h fun u hu => ?_
  obtain ⟨_, -, hpack⟩ := bind_ok.1 hu
  obtain ⟨-, -, hkeeps⟩ := pack_ok hpack
  exact hkeeps hwf

/-- Every operation that answers keeps the canonical form: RESET empties BUF, five operations write it by a pack, and the
others leave it alone (10_state.md R45). -/
theorem buf_wf_of_exec {i : Instr} (h : exec i s = .next t) : t.buf.wf s.cfg.bufWords = true := by
  by_cases hsame : t.buf = s.buf
  · rwa [hsame]
  by_cases hi : i = .reset
  · subst hi
    rw [buf_of_exec_reset h]
    exact Memory.wf_nil _
  obtain ⟨-, hwriter⟩ := writer_of_ne (congrArg State.buf (writtenBy_of_exec hi h)) hsame
  rcases hwriter with rfl | rfl | rfl | rfl | rfl
  · exact buf_wf_of_settle hwf h fun _ => buf_wf_of_emitRow hwf
  · exact buf_wf_of_settle hwf h fun _ => buf_wf_of_emitBlank hwf
  · exact buf_wf_of_pack hwf h
  · exact buf_wf_of_pack hwf h
  · exact buf_wf_of_pack hwf h

/-- A turn keeps the configuration and the canonical form. -/
theorem cfg_and_buf_wf_of_turn {a : Agent} (h : s.turn a = .next t) :
    t.cfg = s.cfg ∧ t.buf.wf s.cfg.bufWords = true := by
  rcases turn_next h with ⟨i, hexec⟩ | rfl | ⟨f, rfl⟩
  · obtain ⟨hcfg, -⟩ := romsAndInputsAreNeverWritten i s t hexec
    exact ⟨hcfg, buf_wf_of_exec hwf hexec⟩
  · exact ⟨rfl, hwf⟩
  · exact ⟨rfl, hwf⟩

end KeepsCanonical

/-- Settles O58: what a line changes before its turn is no part of BUF, and a canonical buffer lists no index of 3N or
more. -/
theorem stepKeepsBufferCanonical : Obligations.StepKeepsBufferCanonical := by
  intro s t hwf h
  obtain ⟨a, _, _, _, _, _, hturn⟩ := step_next h
  obtain ⟨hcfg, hbuf⟩ := cfg_and_buf_wf_of_turn (by exact hwf) hturn
  rw [hcfg]
  exact ⟨hbuf, fun i hi => Memory.read_eq_none_of_risesFrom hbuf (.inr hi)⟩

end Sys2Proof.Machine

/-! The family of 30_encoding.md: the two decoders and their encoder, the settings, the other agents' events, and the
runs of DRAIN and of a sleep. -/
namespace Sys2Proof

/-! ## The operation map (30_encoding.md R103, R104) -/

@[simp] theorem DvRow.hit_iff {r : DvRow} {dv : Byte} : r.hit dv = true ↔ dv &&& r.mask = r.pattern :=
  decide_eq_true_iff

@[simp] theorem DvRow.hit_eq_false_iff {r : DvRow} {dv : Byte} : r.hit dv = false ↔ dv &&& r.mask ≠ r.pattern :=
  decide_eq_false_iff_not

/-- A vector that satisfies two rows makes their patterns agree where both masks look. -/
theorem patterns_agree_of_hits {dv mask pattern mask' pattern' : Byte} (h : dv &&& mask = pattern)
    (h' : dv &&& mask' = pattern') : pattern &&& mask' = pattern' &&& mask := by
  rw [← h, ← h', BitVec.and_assoc, BitVec.and_assoc, BitVec.and_comm mask]

/-- Rows 2 to 12 differ, two by two, in a bit that both masks look at: no vector satisfies two of them. -/
theorem dvTable_tail_disjoint :
    dvTable.tail.Pairwise fun r r' => ∀ dv : Byte, ¬(dv &&& r.mask = r.pattern ∧ dv &&& r'.mask = r'.pattern) := by
  have hdiffer : dvTable.tail.Pairwise fun r r' => r.pattern &&& r'.mask ≠ r'.pattern &&& r.mask := by decide
  exact hdiffer.imp fun hne dv h => hne (patterns_agree_of_hits h.1 h.2)

/-- The search among rows 2 to 12 finds a row exactly when the vector satisfies it: none before it is satisfied too. -/
theorem find?_dvTable_tail_eq_some_iff {dv : Byte} {r : DvRow} :
    dvTable.tail.find? (fun r => r.hit dv) = some r ↔ r ∈ dvTable.tail ∧ dv &&& r.mask = r.pattern := by
  constructor
  · intro h
    exact ⟨List.mem_of_find?_eq_some h, by simpa using List.find?_some h⟩
  · rintro ⟨hmem, hhit⟩
    obtain ⟨before, after, hsplit⟩ := List.append_of_mem hmem
    refine List.find?_eq_some_iff_append.2 ⟨DvRow.hit_iff.2 hhit, before, after, hsplit, fun r' hr' => ?_⟩
    have hdisjoint := hsplit ▸ dvTable_tail_disjoint
    obtain ⟨-, -, hcross⟩ := List.pairwise_append.1 hdisjoint
    simpa using fun hhit' => hcross r' hr' r List.mem_cons_self dv ⟨hhit', hhit⟩

/-- The decode by the first row and the disjoint rest. -/
theorem decodeDv_eq_ite (dv : Byte) : decodeDv dv =
    if dv &&& 0x30 = 0x30 then some .faultMode
    else (dvTable.tail.find? fun r => r.hit dv).map DvRow.instr := by
  rw [decodeDv, show dvTable = ⟨0x30, 0x30, .faultMode⟩ :: dvTable.tail from rfl, List.find?_cons, List.tail_cons]
  split
  · rename_i h
    rw [if_pos (DvRow.hit_iff.1 h), Option.map_some]
  · rename_i h
    rw [if_neg (DvRow.hit_eq_false_iff.1 h)]

/-- The rows of the map are the operations' patterns. -/
theorem mem_dvTable_iff {mask pattern : Byte} {i : Instr} :
    ⟨mask, pattern, i⟩ ∈ dvTable ↔ dvPattern i = some (mask, pattern) := by
  constructor
  · intro h
    have hall : ∀ r ∈ dvTable, dvPattern r.instr = some (r.mask, r.pattern) := by decide
    exact hall _ h
  · intro h
    cases i with
    | faultMode | evtTake | runStart | waitHeld | waitRel | haltPoll | emitRow | holdTxrow | emitBlank | holdTxblank
    | wake | holdSleep =>
      cases h
      decide
    | _ => cases h

/-- A decode vector selects an operation exactly when it satisfies the operation's pattern and, for every operation but
FAULT.MODE, its `MODE` is not the reserved `11`. -/
theorem decodeDv_eq_some_iff {dv : Byte} {i : Instr} : decodeDv dv = some i ↔
    (∃ mask pattern, dvPattern i = some (mask, pattern) ∧ dv &&& mask = pattern) ∧
      (i ≠ .faultMode → dv &&& 0x30 ≠ 0x30) := by
  rw [decodeDv_eq_ite]
  split
  · rename_i hreserved
    constructor
    · rintro ⟨⟩
      exact ⟨⟨_, _, rfl, hreserved⟩, fun hne => absurd rfl hne⟩
    · rintro ⟨-, hmode⟩
      have hi : i = .faultMode := by_contra fun hne => hmode hne hreserved
      rw [hi]
  · rename_i hmode
    rw [Option.map_eq_some_iff]
    constructor
    · rintro ⟨r, hfind, rfl⟩
      obtain ⟨hmem, hhit⟩ := find?_dvTable_tail_eq_some_iff.1 hfind
      exact ⟨⟨_, _, mem_dvTable_iff.1 (List.mem_of_mem_tail hmem), hhit⟩, fun _ => hmode⟩
    · rintro ⟨⟨mask, pattern, hp, hhit⟩, -⟩
      refine ⟨⟨mask, pattern, i⟩, find?_dvTable_tail_eq_some_iff.2 ⟨?_, hhit⟩, rfl⟩
      rcases List.mem_cons.1 (mem_dvTable_iff.2 hp) with hfirst | hrest
      · cases hfirst
        exact absurd hhit hmode
      · exact hrest

/-! ## The encoder -/

/-- A pattern has no bit outside its mask. -/
theorem dvPattern_and_mask {i : Instr} {mask pattern : Byte} (h : dvPattern i = some (mask, pattern)) :
    pattern &&& mask = pattern := by
  have hall : ∀ r ∈ dvTable, r.pattern &&& r.mask = r.pattern := by decide
  exact hall _ (mem_dvTable_iff.2 h)

/-- The encodings of an operation as a decode vector are the vectors that satisfy its pattern. -/
theorem exists_encodeDv_iff {i : Instr} {dv : Byte} : (∃ free, encodeDv i free = some dv) ↔
    ∃ mask pattern, dvPattern i = some (mask, pattern) ∧ dv &&& mask = pattern := by
  constructor
  · rintro ⟨free, h⟩
    obtain ⟨⟨mask, pattern⟩, hp, rfl⟩ := Option.map_eq_some_iff.1 h
    refine ⟨mask, pattern, hp, ?_⟩
    calc (pattern ||| free &&& ~~~mask) &&& mask = pattern &&& mask := by
          ext k hk
          cases hbit : mask[k] <;> simp [hbit]
      _ = pattern := dvPattern_and_mask hp
  · rintro ⟨mask, pattern, hp, rfl⟩
    refine ⟨dv, Option.map_eq_some_iff.2 ⟨_, hp, ?_⟩⟩
    ext k hk
    cases hbit : mask[k] <;> simp [hbit]

/-- An operation with a `pk_op` has no pattern of a decode vector. -/
theorem encodeDv_of_pkCode {i : Instr} {op : BitVec 2} (h : pkCode i = some op) (free : Byte) :
    encodeDv i free = none := by
  cases i with
  | packSingle | packComp | packBlank | faultPkop => rfl
  | _ => cases h

/-- An encoding is an 8-bit decode vector or a 2-bit `pk_op`. -/
theorem encode_eq_some_iff {i : Instr} {free : Byte} {nbits w : Nat} : encode i free = some (nbits, w) ↔
    (∃ dv : Byte, nbits = 8 ∧ w = dv.toNat ∧ encodeDv i free = some dv) ∨
      ∃ op : BitVec 2, nbits = 2 ∧ w = op.toNat ∧ pkCode i = some op := by
  constructor
  · intro h
    unfold encode at h
    split at h
    · rename_i dv hdv
      cases h
      exact .inl ⟨dv, rfl, rfl, hdv⟩
    · obtain ⟨op, hop, hword⟩ := Option.map_eq_some_iff.1 h
      cases hword
      exact .inr ⟨op, rfl, rfl, hop⟩
  · rintro (⟨dv, rfl, rfl, hdv⟩ | ⟨op, rfl, rfl, hop⟩)
    · simp only [encode, hdv]
    · simp only [encode, encodeDv_of_pkCode hop, hop, Option.map_some]

/-- A `pk_op` selects the operation whose code it is (30_encoding.md R106). -/
theorem decodePk_eq_iff {op : BitVec 2} {i : Instr} : decodePk op = i ↔ pkCode i = some op := by
  constructor
  · rintro rfl
    revert op
    decide
  · intro h
    cases i with
    | packSingle | packComp | packBlank | faultPkop =>
      cases h
      rfl
    | _ => cases h

/-- The table decoder reads 8-bit decode vectors and 2-bit codes and nothing else (30_encoding.md R111). -/
theorem decodeTableWord_eq_some_iff {i : Instr} {nbits w : Nat} : decodeTableWord nbits w = some i ↔
    (∃ dv : Byte, nbits = 8 ∧ w = dv.toNat ∧ decodeDv dv = some i) ∨
      ∃ op : BitVec 2, nbits = 2 ∧ w = op.toNat ∧ decodePk op = i := by
  constructor
  · intro h
    by_cases h8 : nbits = 8 ∧ w < 256
    · obtain ⟨rfl, hw⟩ := h8
      have hword : (BitVec.ofNat 8 w).toNat = w := Nat.mod_eq_of_lt hw
      refine .inl ⟨BitVec.ofNat 8 w, rfl, hword.symm, ?_⟩
      rwa [← decodeTableWord_dv, hword]
    · by_cases h2 : nbits = 2 ∧ w < 4
      · obtain ⟨rfl, hw⟩ := h2
        have hword : (BitVec.ofNat 2 w).toNat = w := Nat.mod_eq_of_lt hw
        refine .inr ⟨BitVec.ofNat 2 w, rfl, hword.symm, Option.some.inj ?_⟩
        rwa [← decodeTableWord_pk, hword]
      · have hreject : decodeTableWord nbits w = none := by
          grind [decodeTableWord, decode]
        rw [hreject] at h
        cases h
  · rintro (⟨dv, rfl, rfl, hdv⟩ | ⟨op, rfl, rfl, hop⟩)
    · rwa [decodeTableWord_dv]
    · rw [decodeTableWord_pk, hop]

end Sys2Proof

namespace Sys2Proof.Machine

/-- Settles O3: a word is a decode vector or a `pk_op`; `decodeDv_eq_some_iff` and `exists_encodeDv_iff` speak of the same
pattern, `decodePk_eq_iff` of the same code. -/
theorem decodeAgreesWithEncode : Obligations.DecodeAgreesWithEncode := by
  intro i nbits w
  rw [decodeTableWord_eq_some_iff]
  constructor
  · rintro (⟨dv, rfl, rfl, hdv⟩ | ⟨op, rfl, rfl, hop⟩)
    · obtain ⟨hpattern, hmode⟩ := decodeDv_eq_some_iff.1 hdv
      obtain ⟨free, hfree⟩ := exists_encodeDv_iff.2 hpattern
      exact ⟨⟨free, encode_eq_some_iff.2 (.inl ⟨dv, rfl, rfl, hfree⟩)⟩,
        fun _ hi hw => hmode hi (BitVec.eq_of_toNat_eq hw)⟩
    · exact ⟨⟨0, encode_eq_some_iff.2 (.inr ⟨op, rfl, rfl, decodePk_eq_iff.1 hop⟩)⟩, fun h8 => absurd h8 (by decide)⟩
  · rintro ⟨⟨free, hfree⟩, hmode⟩
    rcases encode_eq_some_iff.1 hfree with ⟨dv, rfl, rfl, hdv⟩ | ⟨op, rfl, rfl, hop⟩
    · exact .inl ⟨dv, rfl, rfl, decodeDv_eq_some_iff.2
        ⟨exists_encodeDv_iff.1 ⟨free, hdv⟩, fun hi hdv' => hmode rfl hi (congrArg BitVec.toNat hdv')⟩⟩
    · exact .inr ⟨op, rfl, rfl, decodePk_eq_iff.2 hop⟩

/-- Settles O2: the table's search answers the first row it meets that is satisfied; the map is total, and its rows 2 to
12 are disjoint. -/
theorem decodePicksFirstMatchingRow : Obligations.DecodePicksFirstMatchingRow := by
  refine ⟨fun dv i => ?_, fun dv => Option.isSome_iff_exists.1 (decodeDv_total dv), dvTable_tail_disjoint⟩
  rw [decodeDv, Option.map_eq_some_iff]
  constructor
  · rintro ⟨r, hfind, rfl⟩
    obtain ⟨hhit, k, hk, rfl, hbefore⟩ := List.find?_eq_some_iff_getElem.1 hfind
    refine ⟨k, _, List.getElem?_eq_getElem hk, DvRow.hit_iff.1 hhit, rfl, fun j r' hj hr' => ?_⟩
    obtain ⟨_, rfl⟩ := List.getElem?_eq_some_iff.1 hr'
    simpa using hbefore j hj
  · rintro ⟨k, r, hr, hhit, rfl, hbefore⟩
    obtain ⟨hk, hrow⟩ := List.getElem?_eq_some_iff.1 hr
    refine ⟨r, List.find?_eq_some_iff_getElem.2 ⟨DvRow.hit_iff.2 hhit, k, hk, hrow, fun j hj => ?_⟩, rfl⟩
    simpa using hbefore j _ hj (List.getElem?_eq_getElem (by omega))

/-- Settles O1: the seven words, evaluated. -/
theorem sampleWordsDecode : Obligations.SampleWordsDecode := by
  unfold Obligations.SampleWordsDecode
  decide

/-! ## REACHED and the sleep (30_encoding.md R102) -/

/-- The wrap-safe difference is at least 0 exactly when the difference modulo `2^64` is below `2^63`. -/
theorem sdiffW_nonneg_iff {a b : Time} : 0 ≤ sdiffW a b ↔ (a - b).toNat < 2 ^ 63 := by
  have hlt := (a - b).isLt
  rw [sdiffW, BitVec.toInt_eq_toNat_cond]
  split <;> omega

/-- Settles O5: `reached_of_sleep` with the compare as a number, `reached_of_ne_sleep`, and the invariant's DEADLINE in
SLEEP. -/
theorem reachedIsWrapSafe : Obligations.ReachedIsWrapSafe := by
  refine ⟨fun s d hsleep hd => ⟨_, reached_of_sleep hsleep hd, by rw [decide_eq_true_iff, sdiffW_nonneg_iff]⟩,
    fun s => reached_of_ne_sleep, fun s hinv => ?_⟩
  obtain ⟨-, ⟨-, -, -, hdeadline, -⟩, -⟩ := hinv
  by_cases hsleep : s.phase = .sleep
  · obtain ⟨d, hd⟩ := Option.isSome_iff_exists.1 (hdeadline hsleep)
    exact ⟨_, reached_of_sleep hsleep hd⟩
  · exact ⟨_, reached_of_ne_sleep hsleep⟩

/-- In SLEEP, with no fault and MODE not reserved, REACHED picks between WAKE and HOLD.SLEEP. -/
theorem controllerOp_of_sleep {s : State} {r : Bool} (hfree : s.faults = []) (hsleep : s.phase = .sleep)
    (hmode : s.mode ≠ .reserved) (hr : s.reached = .ok r) :
    s.controllerOp = .ok (some (if r = true then .wake else .holdSleep)) := by
  refine controllerOp_some.2 ⟨hfree, r, hr, ?_⟩
  rw [decodeDv_dvOf, if_neg hmode, hsleep]

/-- After `k` ticks, no more than there are to the deadline and fewer than `2^63`, NOW is at or after the deadline exactly
when it is there. -/
theorem sdiffW_ticked_nonneg_iff {now d : Time} {k : Nat} (hshort : (d - now).toNat < 2 ^ 63)
    (hk : k ≤ (d - now).toNat) : 0 ≤ sdiffW (now + BitVec.ofNat 64 k) d ↔ k = (d - now).toNat := by
  rw [sdiffW_nonneg_iff]
  bv_omega

/-! ## The line of another agent (30_encoding.md R110, R112) -/

/-- Settles O44: the settings are applied in order, and a code that fits loses no bits. -/
theorem settingsDriveTheInputs : Obligations.SettingsDriveTheInputs := by
  refine fun s => ⟨applySettings_nil s, fun rest => ⟨fun _ => rfl, fun c hc => ?_, fun _ => rfl⟩⟩
  have hset : s.applySetting (.selCode c) = { s with selCode := c } := by
    rw [State.applySetting, Nat.mod_eq_of_lt hc]
  rw [← hset]
  rfl

/-- The condition of ENG.READ (43_playback_controller.md R207). -/
theorem engReadEnabled_iff {s : State} : s.engReadEnabled = true ↔ s.engBusy = true ∧ s.engIdx < 3 * s.cfg.n := by
  rw [State.engReadEnabled, Bool.and_eq_true, decide_eq_true_iff]

/-- The condition of ENG.DONE (43_playback_controller.md R208). -/
theorem engDoneEnabled_iff {s : State} : s.engDoneEnabled = true ↔ s.engBusy = true ∧ s.engIdx = 3 * s.cfg.n := by
  rw [State.engDoneEnabled, Bool.and_eq_true, decide_eq_true_iff]

/-- ENG.READ of a word that holds a value sends its nibbles and moves on. -/
theorem exec_engRead_of_read {s : State} {w : Word} (hon : s.engReadEnabled = true)
    (hw : s.buf.read s.engIdx = some w) :
    exec .engRead s = .next { s with sent := s.sent ++ serialise w, engIdx := s.engIdx + 1 } := by
  have hload : s.buf.load s.cfg.bufWords s.engIdx = .ok w := Memory.load_ok.2 ⟨(engReadEnabled_iff.1 hon).2, hw⟩
  simp only [exec, execEngRead, hon, if_true, hload]
  rfl

/-- ENG.READ of a word that holds no value records F_UNWRITTEN_READ and nothing else. -/
theorem exec_engRead_of_unwritten {s : State} (hon : s.engReadEnabled = true)
    (hw : s.buf.read s.engIdx = none) :
    exec .engRead s = .next (s.raise (.unwrittenRead (.buf s.engIdx))) := by
  have hload : s.buf.load s.cfg.bufWords s.engIdx = .error (.unwrittenRead (.buf s.engIdx)) := by
    simp only [Memory.load, if_pos (engReadEnabled_iff.1 hon).2, hw]
  simp only [exec, execEngRead, hon, if_true, hload]
  rfl

/-- Settles O42: the two events by their conditions, and the read by what BUF holds. -/
theorem engineEventsNeedTheirCondition : Obligations.EngineEventsNeedTheirCondition :=
  ⟨fun _ hoff => if_neg (mt engReadEnabled_iff.1 hoff), fun _ hoff => if_neg (mt engDoneEnabled_iff.1 hoff),
    fun _ hbusy hidx => exec_engRead_of_unwritten (engReadEnabled_iff.2 ⟨hbusy, hidx⟩)⟩

/-- A busy engine with words left runs ENG.READ. -/
theorem turn_engine_of_reading {s : State} (hbusy : s.engBusy = true) (hidx : s.engIdx < 3 * s.cfg.n) :
    s.turn .engine = exec .engRead s := by
  simp only [State.turn, State.opOf, State.engineOp, engReadEnabled_iff.2 ⟨hbusy, hidx⟩, if_true]

/-- A busy engine that has read every word runs ENG.DONE. -/
theorem turn_engine_of_finished {s : State} (hbusy : s.engBusy = true) (hidx : s.engIdx = 3 * s.cfg.n) :
    s.turn .engine = exec .engDone s := by
  have hoff : ¬s.engReadEnabled = true := fun h => absurd (engReadEnabled_iff.1 h).2 (by omega)
  simp only [State.turn, State.opOf, State.engineOp, if_neg hoff, engDoneEnabled_iff.2 ⟨hbusy, hidx⟩, if_true]

/-- An idle engine has no event. -/
theorem turn_engine_of_idle {s : State} (hidle : s.engBusy = false) : s.turn .engine = .next s := by
  simp only [State.turn, State.opOf, State.engineOp, State.engReadEnabled, State.engDoneEnabled, hidle,
    Bool.false_and, Bool.false_eq_true, if_false]

/-- Settles O46: the line's settings, then its agent's turn, which for the engine is by its conditions. -/
theorem stepRunsTheAgentsEvent : Obligations.StepRunsTheAgentsEvent := by
  rintro s sets a rest u ha hs rfl
  rw [step_of_script ha hs]
  refine ⟨?_, ?_, ?_, ?_, ?_, ?_⟩ <;> rintro rfl
  · rfl
  · rfl
  · rfl
  · exact turn_engine_of_reading
  · exact turn_engine_of_finished
  · exact turn_engine_of_idle

/-! ## Runs of a fixed number of steps (30_encoding.md R113) -/

/-- A run whose first step answers goes on from its answer. -/
theorem run_succ {s t : State} (h : step s = .next t) (k : Nat) :
    Host.Core.run core (k + 1) s = Host.Core.run core k t := by
  have hstep : core.step s = .next t := h
  simp only [Host.Core.run, hstep]

/-- A step on a line without settings is its agent's turn. -/
theorem step_plainLine {s : State} {a : Agent} {rest : List Line} (ha : s.cfg.admitted = true)
    (hs : s.script = plainLine a :: rest) : step s = ({ s with script := rest } : State).turn a :=
  step_of_script ha hs

/-- A run of TICK lines advances NOW by their number, and nothing else but the script changes. -/
theorem run_ticks {k : Nat} {s : State} {rest : List Line} (ha : s.cfg.admitted = true)
    (hs : s.script = ticks k ++ rest) :
    Host.Core.run core k s = .next { s with now := s.now + BitVec.ofNat 64 k, script := rest } := by
  induction k generalizing s with
  | zero =>
    subst hs
    simp [Host.Core.run]
  | succ k ih =>
    have htick : step s = .next { s with now := s.now + 1, script := ticks k ++ rest } := step_plainLine ha hs
    have hnow : s.now + 1 + BitVec.ofNat 64 k = s.now + BitVec.ofNat 64 (k + 1) := by
      rw [BitVec.add_assoc, BitVec.add_comm 1, BitVec.ofNat_add]
      rfl
    rw [run_succ htick, ih (by exact ha) rfl, hnow]

/-- Settles O60: the ticks move NOW alone (`run_ticks`), and REACHED is the compare of what is left
(`sdiffW_ticked_nonneg_iff`). -/
theorem sleepEndsExactlyAtDeadline : Obligations.SleepEndsExactlyAtDeadline := by
  intro s d k rest ha hfree hsleep hmode hd hshort hk hs
  refine ⟨_, run_ticks ha hs, rfl, ?_⟩
  rw [controllerOp_of_sleep (by exact hfree) (by exact hsleep) (by exact hmode)
    (reached_of_sleep (by exact hsleep) (by exact hd))]
  simp only [decide_eq_true_iff, sdiffW_ticked_nonneg_iff hshort hk]

/-- The engine's line while words are left sends the next one. -/
theorem step_of_reading {s : State} {w : Word} {rest : List Line} (ha : s.cfg.admitted = true)
    (hs : s.script = plainLine .engine :: rest) (hbusy : s.engBusy = true) (hidx : s.engIdx < 3 * s.cfg.n)
    (hw : s.buf.read s.engIdx = some w) :
    step s = .next { s with script := rest, sent := s.sent ++ serialise w, engIdx := s.engIdx + 1 } := by
  rw [step_plainLine ha hs, turn_engine_of_reading (by exact hbusy) (by exact hidx)]
  exact exec_engRead_of_read (engReadEnabled_iff.2 ⟨hbusy, hidx⟩) hw

/-- The engine's line after the last word latches what was sent. -/
theorem step_of_finished {s : State} {rest : List Line} (ha : s.cfg.admitted = true)
    (hs : s.script = plainLine .engine :: rest) (hbusy : s.engBusy = true) (hidx : s.engIdx = 3 * s.cfg.n) :
    step s = .next { s with script := rest, latched := s.sent, sent := [], engBusy := false } := by
  rw [step_plainLine ha hs, turn_engine_of_finished (by exact hbusy) (by exact hidx)]
  exact if_pos (engDoneEnabled_iff.2 ⟨hbusy, hidx⟩)

/-- From a busy engine with the words `ws` left, a DRAIN of as many lines sends them, latches all that was sent and frees
the engine. -/
theorem run_drainLines {ws : List Word} {s : State} {rest : List Line} (ha : s.cfg.admitted = true)
    (hbusy : s.engBusy = true) (hleft : s.engIdx + ws.length = 3 * s.cfg.n)
    (hws : (List.range' s.engIdx ws.length).map s.buf.read = ws.map some)
    (hs : s.script = drainLines ws.length ++ rest) :
    Host.Core.run core (ws.length + 1) s = .next { s with
      script := rest
      engIdx := 3 * s.cfg.n
      engBusy := false
      sent := []
      latched := s.sent ++ serialiseFrame ws } := by
  induction ws generalizing s with
  | nil =>
    have hidx : s.engIdx = 3 * s.cfg.n := hleft
    have hdone : step s = .next { s with script := rest, latched := s.sent, sent := [], engBusy := false } :=
      step_of_finished ha hs hbusy hidx
    rw [List.length_nil, run_succ hdone]
    simp [Host.Core.run, serialiseFrame, ← hidx]
  | cons w ws ih =>
    simp only [List.length_cons, List.range'_succ, List.map_cons, List.cons.injEq] at hws hleft
    obtain ⟨hw, hws⟩ := hws
    have hidx : s.engIdx < 3 * s.cfg.n := by omega
    have hread : step s = .next { s with
        script := drainLines ws.length ++ rest, sent := s.sent ++ serialise w, engIdx := s.engIdx + 1 } :=
      step_of_reading ha hs hbusy hidx hw
    rw [List.length_cons, run_succ hread, ih (by exact ha) (by exact hbusy) (by simp only; omega) hws rfl]
    simp [serialiseFrame]

/-- Settles O59: `run_drainLines` from the first word of a frame of `3N` words. -/
theorem drainLatchesTheFrame : Obligations.DrainLatchesTheFrame := by
  intro s frame rest ha hbusy hidx hsent hframe hs
  have hlen : 3 * s.cfg.n = frame.length := by simpa using congrArg List.length hframe
  have hrun := run_drainLines (ws := frame) ha hbusy (by omega)
    (by rw [hidx, ← hlen, ← List.range_eq_range', hframe]) (by rw [← hlen]; exact hs)
  rw [hsent, List.nil_append, ← hlen] at hrun
  rw [hrun, ← hsent]

end Sys2Proof.Machine

/-! The family of 40_bit_interleaver.md: the bits of SPREAD and of INTERLEAVE, and what follows from them. -/
namespace Sys2Proof

/-! ## SPREAD (40_bit_interleaver.md R131, R132) -/

theorem getLsbD_bitOf (b : Byte) (k j : Nat) : (bitOf b k).getLsbD j = (decide (j = 0) && b.getLsbD k) := by
  by_cases hj : j = 0
  · subst hj
    simpa [bitOf] using fun hk : b.getLsbD k = true => (BitVec.lt_of_getLsbD hk).trans (by decide : 8 < 32)
  · simp [bitOf, hj]

theorem getLsbD_bitOf_shiftLeft (b : Byte) (k n j : Nat) :
    (bitOf b k <<< n).getLsbD j = (decide (j < 32) && decide (j = n) && b.getLsbD k) := by
  have hbit : (!decide (j < n) && decide (j - n = 0)) = decide (j = n) := by
    rw [← decide_not, ← Bool.decide_and]
    exact decide_eq_decide.mpr (by omega)
  rw [BitVec.getLsbD_shiftLeft, getLsbD_bitOf, ← hbit]
  simp only [Bool.and_assoc]

/-- An index is four times one of the eight positions, where one term of the formula answers, or none of them, where no
term does. -/
theorem getLsbD_spread (b : Byte) (j : Nat) :
    (spread b).getLsbD j = (decide (j < 32) && decide (j % 4 = 0) && b.getLsbD (j / 4)) := by
  simp only [spread, BitVec.getLsbD_or, getLsbD_bitOf_shiftLeft, getLsbD_bitOf]
  by_cases hj : j < 32 ∧ j % 4 = 0
  · obtain ⟨hlt, hmod⟩ := hj
    obtain ⟨k, rfl⟩ := Nat.dvd_of_mod_eq_zero hmod
    have hk : k < 8 := by omega
    interval_cases k <;> simp
  · have hne : ∀ n < 32, n % 4 = 0 → j ≠ n := fun n hn hmod he => hj ⟨he ▸ hn, he ▸ hmod⟩
    have hout : (decide (j < 32) && decide (j % 4 = 0)) = false := by simpa using hj
    rw [hout]
    simp [hne]

theorem getLsbD_cornerMask : ∀ j < 32, (0xEEEEEEEE : Word).getLsbD j = !decide (j % 4 = 0) := by decide

/-- The mask holds the indices that are no multiple of 4, where the entry is 0. -/
theorem spread_and_cornerMask (b : Byte) : spread b &&& 0xEEEEEEEE = 0 := by
  refine BitVec.eq_of_getLsbD_eq fun j hj => ?_
  rw [BitVec.getLsbD_and, getLsbD_spread, getLsbD_cornerMask j hj]
  cases decide (j % 4 = 0) <;> simp

@[simp] theorem spread_zero : spread 0#8 = 0#32 := by decide

/-! ## INTERLEAVE (40_bit_interleaver.md R133 to R135) -/

/-- Shifted to lane `t`, an entry has bits in lane `t` of each nibble alone. -/
theorem getLsbD_spread_shiftLeft (b : Byte) {k s t : Nat} (hk : k < 8) (hs : s < 4) (ht : t < 4) :
    (spread b <<< t).getLsbD (4 * k + s) = (decide (s = t) && b.getLsbD k) := by
  rw [BitVec.getLsbD_shiftLeft, getLsbD_spread]
  by_cases hst : s = t
  · subst hst
    have hlt : 4 * k + s < 32 := by omega
    have hk4 : 4 * k < 32 := by omega
    simp [hlt, hk4]
  · have hmod : t ≤ 4 * k + s → (4 * k + s - t) % 4 ≠ 0 := by omega
    simp +contextual [hst, hmod]

/-- R134: at lane `s` only the entry shifted by `s` answers. -/
theorem getLsbD_interleave (v : Fin 4 → Byte) (s : Fin 4) {k : Nat} (hk : k < 8) :
    (interleave (v 0) (v 1) (v 2) (v 3)).getLsbD (4 * k + s.val) = (v s).getLsbD k := by
  rw [interleave, ← BitVec.shiftLeft_zero (spread (v 0))]
  simp (disch := decide) only [BitVec.getLsbD_or, getLsbD_spread_shiftLeft _ hk s.isLt]
  fin_cases s <;> simp

theorem interleave_eq_or (v0 v1 v2 v3 : Byte) : interleave v0 v1 v2 v3 =
    interleave v0 0 0 0 ||| interleave 0 v1 0 0 ||| interleave 0 0 v2 0 ||| interleave 0 0 0 v3 := by
  simp [interleave]

/-- R135, the fifth property: each lane is read back by R134. -/
theorem interleave_injective {v u : Fin 4 → Byte}
    (h : interleave (v 0) (v 1) (v 2) (v 3) = interleave (u 0) (u 1) (u 2) (u 3)) : v = u := by
  funext s
  refine BitVec.eq_of_getLsbD_eq fun k hk => ?_
  rw [← getLsbD_interleave v s hk, h, getLsbD_interleave u s hk]

end Sys2Proof

namespace Sys2Proof.Machine

theorem exec_spread (b : Byte) (s : State) :
    exec (.spread b) s = .next { s with combOut := some (.word (spread b)) } := rfl

theorem exec_interleave (v0 v1 v2 v3 : Byte) (s : State) :
    exec (.interleave v0 v1 v2 v3) s = .next { s with combOut := some (.word (interleave v0 v1 v2 v3)) } := rfl

/-- Settles O24: the formula bit by bit, its masked form, and the entry SPREAD shows. -/
theorem spreadPlacesEachBit : Obligations.SpreadPlacesEachBit :=
  ⟨getLsbD_spread, spread_and_cornerMask, exec_spread⟩

/-- Settles O25: at lane `s` only that lane's entry answers, and INTERLEAVE shows the formula of R133. -/
theorem interleaveGathersEachBit : Obligations.InterleaveGathersEachBit :=
  ⟨fun v s _ hk => getLsbD_interleave v s hk, exec_interleave⟩

/-- Settles O26: R134 reads each lane of the result, so a nibble depends on its own bit, reordered lanes are read
reordered, and equal results have equal lanes; the two OR forms are the formula with 0 in the free lanes. -/
theorem interleaveProperties : Obligations.InterleaveProperties := by
  refine ⟨fun a b => ?place, fun v v' k hk hbits s => ?positions, fun v p k s hk => ?reorder, interleave_eq_or,
    fun v0 v1 v2 v3 u0 u1 u2 u3 h => ?injective⟩
  case place => simp [interleave]
  case positions => rw [getLsbD_interleave v s hk, getLsbD_interleave v' s hk, hbits s]
  case reorder =>
    calc
      _ = (v (p (p.symm s))).getLsbD k := getLsbD_interleave (fun t => v (p t)) (p.symm s) hk
      _ = (v s).getLsbD k := by rw [p.apply_symm_apply]
      _ = _ := (getLsbD_interleave v s hk).symm
  case injective =>
    simpa using interleave_injective (v := ![v0, v1, v2, v3]) (u := ![u0, u1, u2, u3]) h

end Sys2Proof.Machine

/-! The family of 41_line_packer.md: the row layouts, the rows a pack reads, and what each operation code leaves in BUF. -/
namespace Sys2Proof

/-! ## The row layouts (41_line_packer.md R151) -/

theorem rowOffset_positionMajor {c : Config} (h : c.rowLayout = .positionMajor) (i s ch : Nat) :
    rowOffset c i s ch = 9 * i + 3 * s + ch := by simp only [rowOffset, h]

theorem rowOffset_stripMajor {c : Config} (h : c.rowLayout = .stripMajor) (i s ch : Nat) :
    rowOffset c i s ch = 3 * c.n * s + 3 * i + ch := by simp only [rowOffset, h]

theorem rowOffset_lt (c : Config) {i s ch : Nat} (hi : i < c.n) (hs : s < 3) (hch : ch < 3) :
    rowOffset c i s ch < 9 * c.n := by
  cases h : c.rowLayout with
  | positionMajor => rw [rowOffset_positionMajor h]; omega
  | stripMajor =>
    have hstrip : 3 * c.n * s ≤ 3 * c.n * 2 := Nat.mul_le_mul_left _ (Nat.le_of_lt_succ hs)
    rw [rowOffset_stripMajor h]
    omega

/-- In the strip-major layout the quotient and the remainder by `3N` tell the strip from the byte in it. -/
theorem rowOffset_div_mod_of_stripMajor {c : Config} (h : c.rowLayout = .stripMajor) {i ch : Nat} (s : Nat)
    (hi : i < c.n) (hch : ch < 3) :
    rowOffset c i s ch / (3 * c.n) = s ∧ rowOffset c i s ch % (3 * c.n) = 3 * i + ch := by
  rw [rowOffset_stripMajor h]
  exact (Nat.div_mod_unique (by omega)).2 ⟨by omega, by omega⟩

theorem rowOffset_injective {c : Config} {i s ch i' s' ch' : Nat} (hi : i < c.n) (hs : s < 3) (hch : ch < 3)
    (hi' : i' < c.n) (hs' : s' < 3) (hch' : ch' < 3) (h : rowOffset c i s ch = rowOffset c i' s' ch') :
    i = i' ∧ s = s' ∧ ch = ch' := by
  cases hl : c.rowLayout with
  | positionMajor =>
    rw [rowOffset_positionMajor hl, rowOffset_positionMajor hl] at h
    omega
  | stripMajor =>
    obtain ⟨hstrip, hbyte⟩ := rowOffset_div_mod_of_stripMajor hl s hi hch
    obtain ⟨hstrip', hbyte'⟩ := rowOffset_div_mod_of_stripMajor hl s' hi' hch'
    rw [h] at hstrip hbyte
    omega

theorem exists_rowOffset_eq {c : Config} {o : Nat} (ho : o < 9 * c.n) :
    ∃ i s ch, i < c.n ∧ s < 3 ∧ ch < 3 ∧ rowOffset c i s ch = o := by
  cases h : c.rowLayout with
  | positionMajor =>
    exact ⟨o / 9, o % 9 / 3, o % 3, by omega, by omega, by omega, by rw [rowOffset_positionMajor h]; omega⟩
  | stripMajor =>
    have hmod : o % (3 * c.n) < 3 * c.n := Nat.mod_lt _ (by omega)
    have hdiv : o / (3 * c.n) < 3 := Nat.div_lt_of_lt_mul (by omega)
    have hsum : 3 * c.n * (o / (3 * c.n)) + o % (3 * c.n) = o := Nat.div_add_mod ..
    exact ⟨o % (3 * c.n) / 3, o / (3 * c.n), o % (3 * c.n) % 3, by omega, hdiv, by omega, by
      rw [rowOffset_stripMajor h]; omega⟩

/-! ## The rows a pack reads (42_frame_source.md R171, R174) -/

/-- A row that EXTRACT answers is one of the descriptor's rows: a remainder by LIMIT, mirrored when it is `height` or
more. -/
theorem Descriptor.extract_row_lt {d : Descriptor} (hd : d.height ≠ 0#16) {y : Int} {r : Nat}
    (h : d.extract y = .row r) : r < d.height.toNat := by
  have hmod : y.toNat % d.limit < d.limit := Nat.mod_lt _ (limit_pos hd)
  simp only [extract] at h
  split at h
  case isTrue => cases h
  split at h
  case isTrue => cases h
  split at h
  case isTrue hmirror =>
    cases h
    obtain ⟨hm, hle⟩ := hmirror
    simp only [limit, hm, if_true] at hmod hle ⊢
    omega
  case isFalse hplain =>
    cases h
    by_cases hm : d.mirror = true
    · exact Nat.lt_of_not_le fun hle => hplain ⟨hm, hle⟩
    · simpa [limit, hm] using hmod

/-! ## Lane 3 of a word (41_line_packer.md R159) -/

theorem getLsbD_laneThreeMask : ∀ j < 32, (0x88888888 : Word).getLsbD j = decide (j % 4 = 3) := by decide

/-- The mask holds bit 3 of each nibble. -/
theorem and_laneThreeMask_eq_zero {w : Word} (h : ∀ k, k < 8 → w.getLsbD (4 * k + 3) = false) :
    w &&& 0x88888888 = 0 := by
  refine BitVec.eq_of_getLsbD_eq fun j hj => ?_
  rw [BitVec.getLsbD_and, getLsbD_laneThreeMask j hj]
  by_cases hlane : j % 4 = 3
  · have hbit := h (j / 4) (by omega)
    rw [show 4 * (j / 4) + 3 = j by omega] at hbit
    simp [hbit]
  · simp [hlane]

theorem getLsbD_interleave_laneThree (v0 v1 v2 : Byte) {k : Nat} (hk : k < 8) :
    (interleave v0 v1 v2 0).getLsbD (4 * k + 3) = false := by
  simpa using getLsbD_interleave ![v0, v1, v2, 0] 3 hk

namespace Machine

/-- A row with a byte at every offset below `9N`. -/
def State.Readable (s : State) (row : RowRef) : Prop := ∀ o, o < s.cfg.rowBytes → ∃ b, s.rowByte row o = .ok b

/-- Under an admitted configuration every row that EXTRACT answers for the active animation can be read. -/
theorem readable_extract {s : State} {d : Descriptor} (hadm : s.cfg.admitted = true)
    (hd : s.cfg.anims[s.anim]? = some d) (y : Int) : s.Readable (d.extract y) := by
  intro o ho
  obtain ⟨hheight, -, hcount, hbytes⟩ := Descriptor.wf_iff.1 (Config.wf_of_getElem? hadm hd)
  cases hrow : d.extract y with
  | blank => exact ⟨0, rowByte_ok.2 ⟨ho, .inl ⟨rfl, rfl⟩⟩⟩
  | row r =>
    have hr := Descriptor.extract_row_lt hheight hrow
    have hget : d.rows[r]? = some d.rows[r] := List.getElem?_eq_getElem (hcount ▸ hr)
    have hlen : d.rows[r].length = s.cfg.rowBytes := hbytes _ (List.getElem_mem _)
    exact ⟨_, rowByte_ok.2 ⟨ho, .inr ⟨r, d, _, rfl, hd, hr, hget, List.getElem?_eq_getElem (hlen ▸ ho)⟩⟩⟩

/-! ## What a pack leaves in BUF (41_line_packer.md R153, R154, R156) -/

theorem channelOfSlot_lt (j : Nat) : channelOfSlot j < 3 := by
  unfold channelOfSlot
  split <;> decide

/-- Three readable rows give every word of the frame. -/
theorem packWord_isOk {s : State} {sl : Slots} (h0 : s.Readable sl.s0) (h1 : s.Readable sl.s1) (h2 : s.Readable sl.s2)
    {i : Nat} (hi : i < s.cfg.n) (j : Nat) : ∃ w, s.packWord sl i j = .ok w := by
  obtain ⟨v0, hv0⟩ := h0 _ (rowOffset_lt s.cfg hi (by decide : 0 < 3) (channelOfSlot_lt j))
  obtain ⟨v1, hv1⟩ := h1 _ (rowOffset_lt s.cfg hi (by decide : 1 < 3) (channelOfSlot_lt j))
  obtain ⟨v2, hv2⟩ := h2 _ (rowOffset_lt s.cfg hi (by decide : 2 < 3) (channelOfSlot_lt j))
  exact ⟨_, packWord_ok.2 ⟨v0, v1, v2, hv0, hv1, hv2, rfl⟩⟩

/-- Word `3i + j` of a packed buffer is slot `j` of position `i`. -/
theorem holdsWord_of_packSlots {s t : State} {sl : Slots} (h : s.packSlots sl = .ok t) {i j : Nat} (hi : i < s.cfg.n)
    (hj : j < 3) : HoldsWord s sl t.buf (3 * i + j) i (channelOfSlot j) := by
  obtain ⟨-, hwords, -⟩ := packSlots_ok h
  obtain ⟨w, hw, hread⟩ := hwords (3 * i + j) (by unfold Config.bufWords; omega)
  rw [show (3 * i + j) / 3 = i by omega, show (3 * i + j) % 3 = j by omega] at hw
  obtain ⟨v0, v1, v2, hv0, hv1, hv2, rfl⟩ := packWord_ok.1 hw
  exact ⟨v0, v1, v2, hv0, hv1, hv2, hread⟩

/-- A pack of three readable rows answers, with their frame in BUF and nothing else changed. -/
theorem packSlots_of_readable {s : State} {sl : Slots} (h0 : s.Readable sl.s0) (h1 : s.Readable sl.s1)
    (h2 : s.Readable sl.s2) : ∃ m : Memory, HoldsFrame s sl m ∧ (∀ i, 3 * s.cfg.n ≤ i → m.read i = s.buf.read i) ∧
      s.packSlots sl = .ok { s with buf := m } := by
  obtain ⟨t, ht⟩ := packSlots_isOk fun i (hi : i < 3 * s.cfg.n) =>
    packWord_isOk h0 h1 h2 (by omega : i / 3 < s.cfg.n) (i % 3)
  obtain ⟨hbuf, -, hkept, -⟩ := packSlots_ok ht
  refine ⟨t.buf, fun i hi => ⟨?green, ?red, ?blue⟩, hkept, hbuf ▸ ht⟩
  case green => exact holdsWord_of_packSlots ht hi (by decide : 0 < 3)
  case red => exact holdsWord_of_packSlots ht hi (by decide : 1 < 3)
  case blue => exact holdsWord_of_packSlots ht hi (by decide : 2 < 3)

section ActiveAnimation
variable {s : State} {d : Descriptor} (hadm : s.cfg.admitted = true) (hd : s.cfg.anims[s.anim]? = some d)
include hadm hd

/-- Code `00` packs the one row of R154. -/
theorem pack_single_frame : ∃ m : Memory, HoldsFrame s (singleRow s d) m ∧
    (∀ i, 3 * s.cfg.n ≤ i → m.read i = s.buf.read i) ∧ s.pack 0#2 = .ok { s with buf := m } := by
  have hrow := readable_extract hadm hd s.cursor.toInt
  obtain ⟨m, hframe, hkept, hm⟩ := packSlots_of_readable (sl := singleRow s d) hrow hrow hrow
  exact ⟨m, hframe, hkept, bind_ok.2 ⟨d, desc_ok.2 hd, hm⟩⟩

/-- Code `01` packs the three rows of R156, in the slots of R155. -/
theorem pack_comp_frame : ∃ m : Memory, HoldsFrame s (compositeRows s d) m ∧
    (∀ i, 3 * s.cfg.n ≤ i → m.read i = s.buf.read i) ∧ s.pack 1#2 = .ok { s with buf := m } := by
  have hrow := readable_extract hadm hd
  have hslots : s.Readable (compositeRows s d).s0 ∧ s.Readable (compositeRows s d).s1 ∧
      s.Readable (compositeRows s d).s2 := by
    unfold compositeRows
    cases s.reverse <;> exact ⟨hrow _, hrow _, hrow _⟩
  obtain ⟨h0, h1, h2⟩ := hslots
  obtain ⟨m, hframe, hkept, hm⟩ := packSlots_of_readable h0 h1 h2
  exact ⟨m, hframe, hkept, bind_ok.2 ⟨d, desc_ok.2 hd, hm⟩⟩

end ActiveAnimation

/-- A pack that answers has filled BUF from three rows or with zeros. -/
theorem pack_ok_cases {s t : State} {op : BitVec 2} (h : s.pack op = .ok t) :
    (∃ sl, s.packSlots sl = .ok t) ∨ s.packZero = .ok t := by
  unfold State.pack at h
  split at h
  case h_1 | h_2 =>
    obtain ⟨d, -, hslots⟩ := bind_ok.1 h
    exact .inl ⟨_, hslots⟩
  case h_3 => exact .inr h
  case h_4 => cases h

/-- Every word of BUF after a pack is a gather with lane 3 zero; the zero word is one of four zero bytes. -/
theorem pack_ok_interleave {s t : State} {op : BitVec 2} (h : s.pack op = .ok t) {i : Nat} (hi : i < 3 * s.cfg.n) :
    ∃ v0 v1 v2, t.buf.read i = some (interleave v0 v1 v2 0) := by
  rcases pack_ok_cases h with ⟨sl, hslots⟩ | hzero
  · obtain ⟨-, hwords, -⟩ := packSlots_ok hslots
    obtain ⟨w, hw, hread⟩ := hwords i hi
    obtain ⟨v0, v1, v2, -, -, -, rfl⟩ := packWord_ok.1 hw
    exact ⟨v0, v1, v2, hread⟩
  · obtain ⟨m, hm, hread, -⟩ := packZero_spec s
    rw [hm] at hzero
    cases hzero
    exact ⟨0, 0, 0, (hread i).trans (if_pos hi)⟩

/-! ## A pack run on its own, under the check of the calling step (43_playback_controller.md R194) -/

theorem settle_pack_of_idle {s t : State} {op : BitVec 2} (hidle : s.engBusy = false) (h : s.pack op = .ok t) :
    s.settle (do s.checkBufFree; s.pack op) = .next t :=
  settle_next.2 (.inl (bind_ok.2 ⟨(), checkBufFree_ok.2 hidle, h⟩))

theorem settle_pack_of_busy {s : State} {op : BitVec 2} (hbusy : s.engBusy = true) :
    s.settle (do s.checkBufFree; s.pack op) = .next (s.raise (.bufRace s.engIdx)) := by
  have hcheck : s.checkBufFree = .error (.bufRace s.engIdx) := if_pos hbusy
  rw [hcheck]
  rfl

theorem pkOpOfRow_of_single {d : Descriptor} (h : d.multiline = false) : pkOpOfRow d = 0#2 := by simp [pkOpOfRow, h]

theorem pkOpOfRow_of_multiline {d : Descriptor} (h : d.multiline = true) : pkOpOfRow d = 1#2 := if_pos h

theorem pkOpOfRow_ne_reserved (d : Descriptor) : pkOpOfRow d ≠ 3#2 := by
  unfold pkOpOfRow
  split <;> decide

/-- Settles O18: an admitted configuration gives the row of the active animation all its bytes. -/
theorem packSingleWritesTheFrame : Obligations.PackSingleWritesTheFrame := by
  refine ⟨by decide, fun d => pkOpOfRow_of_single, fun s d hadm hd hidle => ?_⟩
  obtain ⟨m, hframe, hkept, hpack⟩ := pack_single_frame hadm hd
  exact ⟨m, hframe, hkept, settle_pack_of_idle hidle hpack⟩

/-- Settles O19: the same of the three rows of a composite. -/
theorem packCompWritesTheFrame : Obligations.PackCompWritesTheFrame := by
  refine ⟨by decide, fun d => pkOpOfRow_of_multiline, fun s d hadm hd hidle => ?_⟩
  obtain ⟨m, hframe, hkept, hpack⟩ := pack_comp_frame hadm hd
  exact ⟨m, hframe, hkept, settle_pack_of_idle hidle hpack⟩

/-- Settles O20: the blank fill reads no row, so it answers in every state. -/
theorem packBlankWritesZeros : Obligations.PackBlankWritesZeros := by
  refine ⟨by decide, rfl, fun s hidle => ?_⟩
  obtain ⟨m, hm, hread, -⟩ := packZero_spec s
  exact ⟨m, hread, settle_pack_of_idle (op := 2#2) hidle hm⟩

/-- Settles O21: the reserved code raises in the packer, a busy engine in the check before it. -/
theorem packFaultsAreRecorded : Obligations.PackFaultsAreRecorded :=
  ⟨by decide, pkOpOfRow_ne_reserved, by decide, fun _ => rfl, fun _ hbusy =>
    ⟨settle_pack_of_busy hbusy, settle_pack_of_busy hbusy, settle_pack_of_busy hbusy⟩⟩

/-- Settles O22: a gather with lane 3 zero has bit 3 of every nibble clear. -/
theorem packedWordsHaveLaneThreeClear : Obligations.PackedWordsHaveLaneThreeClear := by
  intro op s t h i hi
  obtain ⟨v0, v1, v2, hread⟩ := pack_ok_interleave h hi
  have hclear : ∀ k, k < 8 → (interleave v0 v1 v2 0).getLsbD (4 * k + 3) = false :=
    fun k hk => getLsbD_interleave_laneThree v0 v1 v2 hk
  exact ⟨_, hread, and_laneThreeMask_eq_zero hclear, hclear⟩

/-- Settles O23: the bound, a place for every offset, and no second place. -/
theorem rowLayoutIsOneToOne : Obligations.RowLayoutIsOneToOne := by
  refine ⟨fun c i s ch => ⟨fun h => rowOffset_positionMajor h i s ch, fun h => rowOffset_stripMajor h i s ch⟩,
    fun c i s ch => rowOffset_lt c, fun c o ho => ?_⟩
  obtain ⟨i, s, ch, hi, hs, hch, rfl⟩ := exists_rowOffset_eq ho
  exact ⟨i, s, ch, ⟨hi, hs, hch, rfl⟩, fun _ _ _ hi' hs' hch' h => rowOffset_injective hi' hs' hch' hi hs hch h⟩

end Machine
end Sys2Proof

/-! The family of 42_frame_source.md: LIMIT, the rows EXTRACT answers, and the bytes ROWBYTE reads. -/
namespace Sys2Proof

/-! ## LIMIT (42_frame_source.md R170) -/

theorem Descriptor.limit_of_mirror {d : Descriptor} (h : d.mirror = true) : d.limit = 2 * d.height.toNat := if_pos h

theorem Descriptor.limit_of_not_mirror {d : Descriptor} (h : ¬d.mirror = true) : d.limit = d.height.toNat := if_neg h

theorem Descriptor.height_le_limit (d : Descriptor) : d.height.toNat ≤ d.limit := by
  by_cases h : d.mirror = true
  · rw [limit_of_mirror h]; omega
  · rw [limit_of_not_mirror h]

theorem Descriptor.limit_le (d : Descriptor) : d.limit ≤ 2 ^ 17 - 2 := by
  have hheight : d.height.toNat < 2 ^ 16 := d.height.isLt
  by_cases h : d.mirror = true
  · rw [limit_of_mirror h]; omega
  · rw [limit_of_not_mirror h]; omega

/-! ## The cases of EXTRACT (42_frame_source.md R171) -/

theorem Descriptor.extract_of_neg {d : Descriptor} {y : Int} (h : y < 0) : d.extract y = .blank := if_pos h

theorem Descriptor.extract_of_limit_le {d : Descriptor} {y : Int} (hloop : d.loop = false) (hy : (d.limit : Int) ≤ y) :
    d.extract y = .blank := by
  rw [extract, if_neg (by omega), if_pos ⟨hloop, hy⟩]

/-- The row at place `m` of the period: the second half of a mirrored animation runs back. -/
def Descriptor.rowAt (d : Descriptor) (m : Nat) : Nat :=
  if d.mirror = true ∧ d.height.toNat ≤ m then d.limit - m - 1 else m

theorem Descriptor.rowAt_of_mirrored {d : Descriptor} {m : Nat} (hm : d.mirror = true) (h : d.height.toNat ≤ m) :
    d.rowAt m = d.limit - m - 1 := if_pos ⟨hm, h⟩

theorem Descriptor.rowAt_of_not_mirrored {d : Descriptor} {m : Nat} (h : ¬(d.mirror = true ∧ d.height.toNat ≤ m)) :
    d.rowAt m = m := if_neg h

/-- From 0 on, with loop or before LIMIT, EXTRACT answers the row at the remainder by LIMIT. -/
theorem Descriptor.extract_eq_row {d : Descriptor} {y : Int} (h0 : 0 ≤ y) (hplay : d.loop = true ∨ y < d.limit) :
    d.extract y = .row (d.rowAt (y % d.limit).toNat) := by
  have hnotPast : ¬(d.loop = false ∧ (d.limit : Int) ≤ y) := by
    rintro ⟨hloop, hle⟩
    rcases hplay with hplay | hlt
    · simp [hloop] at hplay
    · omega
  rw [Int.toNat_emod h0 (Int.natCast_nonneg _), Int.toNat_natCast, extract, if_neg (by omega), if_neg hnotPast]
  exact (apply_ite RowRef.row _ _ _).symm

/-- Before LIMIT the remainder is the place itself. -/
theorem Descriptor.extract_natCast {d : Descriptor} {m : Nat} (h : m < d.limit) : d.extract m = .row (d.rowAt m) := by
  have hlt : (m : Int) < d.limit := by omega
  rw [extract_eq_row (Int.natCast_nonneg m) (.inr hlt), Int.emod_eq_of_lt (Int.natCast_nonneg m) hlt, Int.toNat_natCast]

/-- Row `r` stands at place `r`. -/
theorem Descriptor.extract_natCast_of_lt_height {d : Descriptor} {r : Nat} (h : r < d.height.toNat) :
    d.extract r = .row r := by
  rw [extract_natCast (h.trans_le d.height_le_limit), rowAt_of_not_mirrored fun hm => absurd hm.2 (by omega)]

/-- With loop, EXTRACT has the period LIMIT from 0 on (42_frame_source.md R175 item 1). -/
theorem Descriptor.extract_add_limit {d : Descriptor} {y : Int} (hloop : d.loop = true) (h0 : 0 ≤ y) :
    d.extract (y + d.limit) = d.extract y := by
  rw [extract_eq_row h0 (.inl hloop), extract_eq_row (by omega) (.inl hloop), Int.add_emod_right]

/-- With mirror, the places at distance `k` on either side of the middle show one row (42_frame_source.md R175 item 2). -/
theorem Descriptor.extract_mirror {d : Descriptor} {k : Nat} (hm : d.mirror = true) (hk : k < d.height.toNat) :
    d.extract ((d.height.toNat : Int) + k) = d.extract ((d.height.toNat : Int) - k - 1) := by
  have hlimit := limit_of_mirror hm
  have hbelow : (d.height.toNat : Int) - k - 1 = (d.height.toNat - k - 1 : Nat) := by omega
  have habove : d.limit - (d.height.toNat + k) - 1 = d.height.toNat - k - 1 := by omega
  rw [hbelow, extract_natCast_of_lt_height (by omega), ← Int.natCast_add, extract_natCast (by omega),
    rowAt_of_mirrored hm (by omega), habove]

namespace Machine

/-- Settles O27: the height has 16 bits. -/
theorem limitDoublesWithMirror : Obligations.LimitDoublesWithMirror :=
  ⟨fun _ _ => rfl, fun d h => ⟨d.limit_pos h, d.limit_le⟩⟩

/-- Settles O28: EXTRACT is not refused, and each case is an equation of `Descriptor.extract`. -/
theorem extractFollowsThePolicy : Obligations.ExtractFollowsThePolicy := by
  refine fun d y s hd => ⟨_, if_neg hd, rfl, ?below, ?past, ?mirrored, ?plain⟩
  case below => exact Descriptor.extract_of_neg
  case past => exact fun _ => Descriptor.extract_of_limit_le
  case mirrored =>
    intro h0 hplay hm hle
    rw [Descriptor.extract_eq_row h0 hplay, Descriptor.rowAt_of_mirrored hm hle]
  case plain =>
    intro h0 hplay hplain
    rw [Descriptor.extract_eq_row h0 hplay, Descriptor.rowAt_of_not_mirrored hplain]

/-- Settles O29 by the packer's lemma on the rows it reads. -/
theorem extractStaysInRange : Obligations.ExtractStaysInRange :=
  fun _ _ _ hd h => Descriptor.extract_row_lt hd h

/-- Settles O30: `y + LIMIT` is 0 or more where `y` is less than one period below 0, so it answers a row. -/
theorem extractPeriodMirrorBounds : Obligations.ExtractPeriodMirrorBounds := by
  refine ⟨?period, ?belowZero, fun _ _ => Descriptor.extract_mirror, ?bounds⟩
  case period => exact fun _ _ _ hloop h0 => (Descriptor.extract_add_limit hloop h0).symm
  case belowZero =>
    exact fun _ _ _ hloop hle hneg =>
      ⟨Descriptor.extract_of_neg hneg, _, Descriptor.extract_eq_row (by omega) (.inl hloop)⟩
  case bounds =>
    rintro d y hloop (hle | hneg)
    · exact Descriptor.extract_of_limit_le hloop hle
    · exact Descriptor.extract_of_neg hneg

/-! ## ROWBYTE (42_frame_source.md R174) -/

theorem exec_rowbyte_of_ok {s : State} {ref : RowRef} {o : Nat} {b : Byte} (h : s.rowByte ref o = .ok b) :
    exec (.rowbyte ref o) s = .next { s with combOut := some (.byte b) } := by
  simp only [exec, execRowbyte, h]
  rfl

theorem exec_rowbyte_of_error {s : State} {ref : RowRef} {o : Nat} {f : Fault} (h : s.rowByte ref o = .error f) :
    exec (.rowbyte ref o) s = .next (s.raise f) := by
  simp only [exec, execRowbyte, h]
  rfl

theorem rowByte_of_rowBytes_le {s : State} {o : Nat} (h : s.cfg.rowBytes ≤ o) (ref : RowRef) :
    s.rowByte ref o = .error (.indexRange o) := if_pos h

theorem rowByte_of_height_le {s : State} {d : Descriptor} {r o : Nat} (hd : s.cfg.anims[s.anim]? = some d)
    (ho : o < s.cfg.rowBytes) (hr : d.height.toNat ≤ r) : s.rowByte (.row r) o = .error (.indexRange r) := by
  rw [State.rowByte, if_neg (by omega), desc_ok.2 hd]
  exact if_pos hr

/-- Under an admitted configuration a row index below the height has its byte at every offset below `9N`: row `r` is what
EXTRACT answers at `r`. -/
theorem rowByte_of_lt_height {s : State} {d : Descriptor} {r o : Nat} (hadm : s.cfg.admitted = true)
    (hd : s.cfg.anims[s.anim]? = some d) (hr : r < d.height.toNat) (ho : o < s.cfg.rowBytes) :
    ∃ row b, d.rows[r]? = some row ∧ row[o]? = some b ∧ s.rowByte (.row r) o = .ok b := by
  obtain ⟨b, hb⟩ := readable_extract hadm hd r o ho
  rw [Descriptor.extract_natCast_of_lt_height hr] at hb
  obtain ⟨-, ⟨hblank, -⟩ | ⟨r', d', row, hrow, hd', -, hget, hbyte⟩⟩ := rowByte_ok.1 hb
  · cases hblank
  · cases hrow
    cases hd.symm.trans hd'
    exact ⟨row, b, hget, hbyte, hb⟩

/-- Settles O31: in both cases the byte read answers, and ROWBYTE shows it. -/
theorem rowbyteReadsTheRow : Obligations.RowbyteReadsTheRow := by
  refine ⟨fun s o ho => exec_rowbyte_of_ok (rowByte_ok.2 ⟨ho, .inl ⟨rfl, rfl⟩⟩), fun s d r o hadm hd hr ho => ?_⟩
  obtain ⟨row, b, hrow, hbyte, hread⟩ := rowByte_of_lt_height hadm hd hr ho
  exact ⟨row, b, hrow, hbyte, exec_rowbyte_of_ok hread⟩

/-- Settles O32: in both cases the byte read is an error, and ROWBYTE records it. -/
theorem rowbyteOutOfRangeFaults : Obligations.RowbyteOutOfRangeFaults :=
  ⟨fun _ ref _ ho => exec_rowbyte_of_error (rowByte_of_rowBytes_le ho ref),
    fun _ _ _ _ hd ho hr => exec_rowbyte_of_error (rowByte_of_height_le hd ho hr)⟩

end Machine
end Sys2Proof

/-! The family of 43_playback_controller.md: the cursor policy and the selection, the controller's operations and its
transition table, the engine's events, and the invariant that every step keeps. -/
namespace Sys2Proof

/-! ## The cursor policy (43_playback_controller.md R191, R192) -/

theorem Descriptor.startCursor_mem (d : Descriptor) : -2 ≤ d.startCursor ∧ d.startCursor ≤ 0 := by
  unfold startCursor
  split <;> decide

/-- The cursor register holds START as it is. -/
theorem Descriptor.toInt_ofInt_startCursor (d : Descriptor) : (BitVec.ofInt 32 d.startCursor).toInt = d.startCursor := by
  unfold startCursor
  split <;> decide

/-- Below LIMIT, which has 17 bits, the increment of the cursor is no overflow. -/
theorem Descriptor.toInt_add_one {d : Descriptor} {c : Cursor} (h : c.toInt < d.limit) :
    (c + 1).toInt = c.toInt + 1 := by
  have hlimit := d.limit_le
  have hlow := c.le_toInt
  have hone : (1 : Cursor).toInt = 1 := by decide
  rw [BitVec.toInt_add, hone]
  exact Int.bmod_eq_of_le (by omega) (by omega)

/-- A next cursor that is an `s32` is the one the register takes. -/
theorem Descriptor.advanceCursor_of_advance {d : Descriptor} {c : Cursor} {next : Int} {halt : Bool}
    (h : d.advance c.toInt = (next, halt)) (hnext : next < 2 ^ 31) :
    d.advanceCursor c = (BitVec.ofInt 32 next, halt) := by
  simp only [advanceCursor, h, if_pos hnext]

/-- ADVANCE on the register, in the domain of R192. -/
theorem Descriptor.advanceCursor_eq {d : Descriptor} {c : Cursor} (h : c.toInt < d.limit) :
    d.advanceCursor c = if c.toInt + 1 < d.limit then (c + 1, false)
      else if d.loop = true then (0, false) else (c + 1, true) := by
  have hsmall : c.toInt + 1 < 2 ^ 31 := by have := d.limit_le; omega
  have hnext : BitVec.ofInt 32 (c.toInt + 1) = c + 1 := by rw [← toInt_add_one h, BitVec.ofInt_toInt]
  split
  case isTrue hlt =>
    rw [advanceCursor_of_advance (if_neg (Int.not_le.2 hlt)) hsmall, hnext]
  case isFalse hge =>
    split
    case isTrue hloop =>
      exact advanceCursor_of_advance ((if_pos (Int.not_lt.1 hge)).trans (if_pos hloop)) (by decide)
    case isFalse hloop =>
      rw [advanceCursor_of_advance ((if_pos (Int.not_lt.1 hge)).trans (if_neg hloop)) hsmall, hnext]

/-- ADVANCE halts exactly when the increment reaches LIMIT without loop. -/
theorem Descriptor.advanceCursor_halts_iff {d : Descriptor} {c : Cursor} :
    (d.advanceCursor c).2 = true ↔ d.loop = false ∧ (d.limit : Int) ≤ c.toInt + 1 := by
  simp only [advanceCursor, advance]
  split
  case isTrue hle => cases d.loop <;> simp [hle]
  case isFalse hlt => simp [hlt]

/-- ADVANCE that does not halt leaves the cursor between START and LIMIT (43_playback_controller.md R213). -/
theorem Descriptor.advanceCursor_mem {d : Descriptor} {c : Cursor} (hd : d.height ≠ 0#16)
    (hlo : d.startCursor ≤ c.toInt) (hhi : c.toInt < d.limit) (hgoes : ¬(d.advanceCursor c).2 = true) :
    d.startCursor ≤ (d.advanceCursor c).1.toInt ∧ (d.advanceCursor c).1.toInt < d.limit := by
  rw [advanceCursor_eq hhi] at hgoes ⊢
  split at hgoes
  case isTrue hlt =>
    rw [if_pos hlt, toInt_add_one hhi]
    exact ⟨by omega, hlt⟩
  case isFalse hge =>
    split at hgoes
    case isTrue hloop =>
      rw [if_neg hge, if_pos hloop]
      exact ⟨d.startCursor_mem.2, Int.natCast_pos.2 (d.limit_pos hd)⟩
    case isFalse => exact absurd rfl hgoes

/-! ## The order on the wire (43_playback_controller.md R209) -/

/-- The `k`-th nibble sent of a word is its nibble `7 - k`. -/
theorem getElem?_serialise (w : Word) {k : Nat} (hk : k < 8) :
    (serialise w)[k]? = some (w.extractLsb' (4 * (7 - k)) 4) := by
  interval_cases k <;> rfl

namespace Machine

/-- Settles O33: START as the register holds it. -/
theorem startIsMinusTwoWhenMultiline : Obligations.StartIsMinusTwoWhenMultiline := by
  intro d s
  rw [← d.ofInt_startCursor]
  rfl

/-- Settles O34: ADVANCE shows what `advanceCursor_eq` says. -/
theorem advanceWrapsOrHalts : Obligations.AdvanceWrapsOrHalts := by
  intro d c s _ _ hhi
  have hshown : exec (.advance d c) s = .next { s with
      combOut := some (.advance (d.advanceCursor c).1 (d.advanceCursor c).2) } := rfl
  refine ⟨Descriptor.toInt_add_one hhi, Descriptor.advanceCursor_eq hhi, ?_⟩
  rw [hshown, Descriptor.advanceCursor_eq hhi]
  split
  · rfl
  · split <;> rfl

/-- Settles O35: an entry that no entry of the same code precedes is the one the lookup finds. -/
theorem selectIsTotalWithDefault : Obligations.SelectIsTotalWithDefault := by
  have hlisted : ∀ (c : Config) (code a : Nat), c.selList.lookup code = some a → code ≠ 0 → c.select code = a := by
    intro c code a hlookup hcode
    rw [Config.select, if_neg hcode, hlookup, Option.getD_some]
  refine ⟨fun _ _ => rfl, fun c code h => Config.select_lt h code, fun c code => Config.select_of_unlisted, hlisted,
    fun c code a before later hsplit hbefore => hlisted c code a ?_, fun _ => rfl⟩
  exact List.lookup_eq_some_iff.2 ⟨before, later, hsplit, fun e he => by simpa using (hbefore e he).symm⟩

/-- Settles O43: bit `s` of nibble `7 - k` is bit `4(7 - k) + s` of the word, which is strip `s`'s bit `7 - k`. -/
theorem stripsReceiveMsbFirst : Obligations.StripsReceiveMsbFirst := by
  intro v s k hk
  rw [getElem?_serialise _ hk, Option.map_some, BitVec.getLsbD_extractLsb', getLsbD_interleave v s (by omega)]
  simp

/-! ## The operations with no check (43_playback_controller.md R195 to R205) -/

/-- An operation's pattern is its decode clause. -/
theorem selectedBy_of_dvPattern {i : Instr} {mask pattern : Byte} (h : dvPattern i = some (mask, pattern)) :
    SelectedBy i mask pattern := by
  intro dv hmode
  rw [decodeDv_eq_some_iff]
  constructor
  · rintro ⟨⟨_, _, hp, hhit⟩, -⟩
    cases h.symm.trans hp
    exact hhit
  · exact fun hhit => ⟨⟨_, _, h, hhit⟩, fun _ => hmode⟩

/-- Settles O7: the button event is the two writes. -/
theorem evtTakeEntersWait : Obligations.EvtTakeEntersWait :=
  ⟨selectedBy_of_dvPattern rfl, fun _ => rfl⟩

/-- Settles O8: its pattern, and its effect as defined. -/
theorem runStartSamplesNow : Obligations.RunStartSamplesNow :=
  ⟨selectedBy_of_dvPattern rfl, fun _ => rfl⟩

/-- Settles O9: its pattern, and its effect as defined. -/
theorem waitHeldSamplesNow : Obligations.WaitHeldSamplesNow :=
  ⟨selectedBy_of_dvPattern rfl, fun _ => rfl⟩

/-- WAIT.REL with the selected animation in the table. -/
theorem exec_waitRel {s : State} {d : Descriptor} (hd : s.cfg.anims[s.cfg.select s.selCode]? = some d) :
    exec .waitRel s = .next { s with
      anim := s.cfg.select s.selCode, cursor := BitVec.ofInt 32 d.startCursor, mode := .run } :=
  settle_next.2 (.inl (leaveWait_ok.2 ⟨d, hd, rfl⟩))

/-- Settles O10: the selected animation is in the table, so the return answers. -/
theorem waitRelReselectsAndRestarts : Obligations.WaitRelReselectsAndRestarts := by
  refine ⟨selectedBy_of_dvPattern rfl, fun s hadm => ?_⟩
  have hd := List.getElem?_eq_getElem (Config.select_lt hadm s.selCode)
  refine ⟨_, hd, ?_⟩
  rw [← Descriptor.ofInt_startCursor]
  exact exec_waitRel hd

/-- Settles O11: its pattern, and its effect as defined. -/
theorem haltPollSleepsOnePoll : Obligations.HaltPollSleepsOnePoll :=
  ⟨selectedBy_of_dvPattern rfl, fun _ => rfl⟩

/-- Settles O12: its pattern, and its effect as defined. -/
theorem wakeReturnsToHead : Obligations.WakeReturnsToHead :=
  ⟨selectedBy_of_dvPattern rfl, fun _ => rfl⟩

/-- Settles O13: their patterns, and a hold as defined. -/
theorem holdsChangeNothing : Obligations.HoldsChangeNothing :=
  ⟨selectedBy_of_dvPattern rfl, selectedBy_of_dvPattern rfl, selectedBy_of_dvPattern rfl,
    fun _ => ⟨rfl, rfl, rfl⟩⟩

/-! ## The two emits (43_playback_controller.md R197, R200, R206) -/

/-- A buffer with a value in each of its first words has a frame. -/
theorem exists_frame {m : Memory} {words : Nat} (h : ∀ i < words, ∃ w, m.read i = some w) :
    ∃ frame : List Word, (List.range words).map m.read = frame.map some := by
  refine ⟨(List.range words).map fun i => (m.read i).getD 0, ?_⟩
  rw [List.map_map]
  refine List.map_congr_left fun i hi => ?_
  obtain ⟨w, hw⟩ := h i (List.mem_range.1 hi)
  simp [hw]

/-- EMIT.ROW with its checks passed and its pack answered: every word of BUF then holds a value, so the hand-over answers
too. -/
theorem exec_emitRow_of_pack {s : State} {t0 : Time} {d : Descriptor} {m : Memory} (ht0 : s.cycleStart = some t0)
    (hidle : s.engBusy = false) (hd : s.cfg.anims[s.anim]? = some d)
    (hpack : s.pack (pkOpOfRow d) = .ok { s with buf := m }) :
    ∃ frame : List Word, (List.range (3 * s.cfg.n)).map m.read = frame.map some ∧
      exec .emitRow s = .next { handedOver s m frame (t0 + d.period.setWidth 64) with
        cursor := (d.advanceCursor s.cursor).1
        mode := if (d.advanceCursor s.cursor).2 then .halt else s.mode } := by
  obtain ⟨frame, hframe⟩ := exists_frame (m := m) (words := 3 * s.cfg.n) fun i hi => by
    obtain ⟨v0, v1, v2, hread⟩ := pack_ok_interleave hpack hi
    exact ⟨_, hread⟩
  exact ⟨frame, hframe, settle_next.2 (.inl (emitRow_ok.2 ⟨t0, d, _, frame, ht0, hidle, hd, hpack, hframe, rfl⟩))⟩

/-- Under an admitted configuration the pack that EMIT.ROW issues answers, single-line or multiline. -/
theorem pack_row_isOk {s : State} {d : Descriptor} (hadm : s.cfg.admitted = true)
    (hd : s.cfg.anims[s.anim]? = some d) : ∃ m, s.pack (pkOpOfRow d) = .ok { s with buf := m } := by
  cases hmulti : d.multiline with
  | false =>
    obtain ⟨m, -, -, hpack⟩ := pack_single_frame hadm hd
    exact ⟨m, pkOpOfRow_of_single hmulti ▸ hpack⟩
  | true =>
    obtain ⟨m, -, -, hpack⟩ := pack_comp_frame hadm hd
    exact ⟨m, pkOpOfRow_of_multiline hmulti ▸ hpack⟩

/-- Settles O14: the single row is packed (`pack_single_frame`) and handed over (`exec_emitRow_of_pack`). -/
theorem emitRowSingleLine : Obligations.EmitRowSingleLine := by
  refine ⟨selectedBy_of_dvPattern rfl, fun s t0 d hadm hd hsingle ht0 hidle => ?_⟩
  obtain ⟨m, hholds, hkept, hpack⟩ := pack_single_frame hadm hd
  rw [← pkOpOfRow_of_single hsingle] at hpack
  obtain ⟨frame, hframe, hexec⟩ := exec_emitRow_of_pack ht0 hidle hd hpack
  exact ⟨m, frame, hholds, hkept, hframe, hexec⟩

/-- Settles O15: the composite is packed (`pack_comp_frame`) and handed over (`exec_emitRow_of_pack`). -/
theorem emitRowMultiline : Obligations.EmitRowMultiline := by
  intro s t0 d hadm hd hmulti ht0 hidle
  obtain ⟨m, hholds, hkept, hpack⟩ := pack_comp_frame hadm hd
  rw [← pkOpOfRow_of_multiline hmulti] at hpack
  obtain ⟨frame, hframe, hexec⟩ := exec_emitRow_of_pack ht0 hidle hd hpack
  exact ⟨m, frame, hholds, hkept, hframe, hexec⟩

/-- Settles O16: after the blank fill every word of BUF reads 0. -/
theorem emitBlankSendsZeros : Obligations.EmitBlankSendsZeros := by
  refine ⟨selectedBy_of_dvPattern rfl, fun s t0 ht0 hidle => ?_⟩
  obtain ⟨m, hm, hread, -⟩ := packZero_spec s
  have hframe : (List.range (3 * s.cfg.n)).map m.read = (List.replicate (3 * s.cfg.n) 0).map some := by
    rw [List.map_replicate]
    refine List.eq_replicate_iff.2 ⟨by simp, fun w hw => ?_⟩
    obtain ⟨i, hi, rfl⟩ := List.mem_map.1 hw
    exact (hread i).trans (if_pos (List.mem_range.1 hi))
  exact ⟨m, hread, settle_next.2 (.inl (emitBlank_ok.2 ⟨t0, _, _, ht0, hidle, hm, hframe, rfl⟩))⟩

/-! ## The common checks (43_playback_controller.md R194) -/

theorem readCycleStart_of_none {s : State} (h : s.cycleStart = none) :
    s.readCycleStart = .error (.unwrittenRead .cycleStart) := by
  simp only [State.readCycleStart, h]

theorem checkBufFree_of_busy {s : State} (h : s.engBusy = true) : s.checkBufFree = .error (.bufRace s.engIdx) :=
  if_pos h

/-- In SLEEP with no DEADLINE the decode vector is not assembled, so a controller with no fault picks no operation. -/
theorem controllerOp_of_sleep_of_none {s : State} (hfree : s.faults = []) (hsleep : s.phase = .sleep)
    (hd : s.deadline = none) : s.controllerOp = .error (.unwrittenRead .deadline) := by
  have hr : s.reached = .error (.unwrittenRead .deadline) := by
    simp only [State.reached, hsleep, State.readDeadline, hd]
    rfl
  simp only [State.controllerOp, if_pos hfree, State.decodeVector, hr]
  rfl

/-- Settles O17: the first check that fails is the fault recorded. -/
theorem commonChecksInOrder : Obligations.CommonChecksInOrder := by
  refine ⟨fun s hnone => ?unwritten, fun s t0 ht0 hbusy => ?race, fun s hbusy => if_pos hbusy,
    fun s sets rest hadm hfree hsleep hnone hs => ?deadline⟩
  case unwritten =>
    have hread := readCycleStart_of_none hnone
    simp only [exec, execEmitRow, State.emitRow, execEmitBlank, State.emitBlank, hread]
    exact ⟨rfl, rfl⟩
  case race =>
    have hread := readCycleStart_ok.2 ht0
    have hcheck := checkBufFree_of_busy hbusy
    simp only [exec, execEmitRow, State.emitRow, execEmitBlank, State.emitBlank, hread, hcheck]
    exact ⟨rfl, rfl⟩
  case deadline =>
    rw [step_of_script hadm hs]
    simp only [State.turn, State.opOf]
    rw [controllerOp_of_sleep_of_none (by simp [hfree]) (by simp [hsleep]) (by simp [hnone])]

/-! ## The events of the other agents (43_playback_controller.md R207 to R211) -/

/-- Settles O38: the handler's effect as defined. -/
theorem btnEdgeSetsPending : Obligations.BtnEdgeSetsPending := fun _ => rfl

/-- Settles O39: the increment of a 64-bit word is the sum modulo `2^64`. -/
theorem tickAdvancesNow : Obligations.TickAdvancesNow := by
  intro s
  have hnow : BitVec.ofNat 64 ((s.now.toNat + 1) % 2 ^ 64) = s.now + 1 := by bv_omega
  rw [hnow]
  rfl

/-- Settles O40: an enabled read of a word that holds a value sends its nibbles in the order of `serialise`. -/
theorem engReadSendsTheNextWord : Obligations.EngReadSendsTheNextWord :=
  fun _ _ hbusy hidx hw => exec_engRead_of_read (engReadEnabled_iff.2 ⟨hbusy, hidx⟩) hw

/-- Settles O41: the event's condition holds. -/
theorem engDoneLatchesAndFrees : Obligations.EngDoneLatchesAndFrees :=
  fun _ hbusy hidx => if_pos (engDoneEnabled_iff.2 ⟨hbusy, hidx⟩)

/-! ## What an operation keeps of the invariant -/

/-- A word that a canonical buffer lists is the one it reads there. -/
theorem Memory.read_of_mem {hi lo : Nat} {m : Memory} (h : Memory.risesFrom hi lo m = true) {e : Nat × Word}
    (he : e ∈ m) : m.read e.1 = some e.2 := by
  induction m generalizing lo with
  | nil => cases he
  | cons e' m ih =>
    obtain ⟨a, v⟩ := e'
    simp only [Memory.risesFrom, Bool.and_eq_true] at h
    rcases List.mem_cons.1 he with rfl | hmem
    · simp [Memory.read]
    · have hread := ih h.2 hmem
      have hne : a ≠ e.1 := by
        rintro rfl
        rw [Memory.read_eq_none_of_risesFrom h.2 (.inl (Nat.lt_succ_self _))] at hread
        cases hread
      rw [Memory.read, if_neg hne, hread]

/-- A canonical buffer lists no index outside it. -/
theorem Memory.lt_of_mem {words : Nat} {m : Memory} (h : m.wf words = true) {e : Nat × Word} (he : e ∈ m) :
    e.1 < words := by
  by_contra hge
  have hread := Memory.read_of_mem h he
  rw [Memory.read_eq_none_of_risesFrom h (.inr (Nat.not_lt.1 hge))] at hread
  cases hread

/-- An operation that settles and changes BUF has had its effect. -/
theorem ok_of_settle_of_buf_ne {s t : State} {r : Except Fault State} (h : s.settle r = .next t)
    (hne : t.buf ≠ s.buf) : r = .ok t := by
  rcases settle_next.1 h with hok | ⟨f, -, rfl⟩
  · exact hok
  · exact absurd rfl hne

/-- After an operation BUF is as before, empty by a RESET, or what a pack has left. -/
theorem buf_of_exec {i : Instr} {s t : State} (h : exec i s = .next t) :
    t.buf = s.buf ∨ t.buf = [] ∨ ∃ op p, s.pack op = .ok p ∧ t.buf = p.buf := by
  by_cases hsame : t.buf = s.buf
  · exact .inl hsame
  by_cases hi : i = .reset
  · subst hi
    exact .inr (.inl (buf_of_exec_reset h))
  have halone : ∀ op, s.settle (do s.checkBufFree; s.pack op) = .next t →
      ∃ op p, s.pack op = .ok p ∧ t.buf = p.buf := by
    intro op h
    obtain ⟨_, -, hpack⟩ := bind_ok.1 (ok_of_settle_of_buf_ne h hsame)
    exact ⟨op, t, hpack, rfl⟩
  obtain ⟨-, hwriter⟩ := writer_of_ne (congrArg State.buf (writtenBy_of_exec hi h)) hsame
  refine .inr (.inr ?_)
  rcases hwriter with rfl | rfl | rfl | rfl | rfl
  · obtain ⟨_, _, p, _, -, -, -, hpack, -, rfl⟩ := emitRow_ok.1 (ok_of_settle_of_buf_ne h hsame)
    exact ⟨_, p, hpack, rfl⟩
  · obtain ⟨_, p, _, -, -, hpack, -, rfl⟩ := emitBlank_ok.1 (ok_of_settle_of_buf_ne h hsame)
    exact ⟨pkOpOfBlank, p, hpack, rfl⟩
  · exact halone _ h
  · exact halone _ h
  · exact halone _ h

/-- Every operation keeps BUF canonical with lane 3 clear: a pack leaves it so (41_line_packer.md R159). -/
theorem bufferOk_of_exec {i : Instr} {s t : State} (hbuf : s.BufferOk) (h : exec i s = .next t) : t.BufferOk := by
  obtain ⟨hwf, hclear⟩ := hbuf
  obtain ⟨hcfg, -⟩ := romsAndInputsAreNeverWritten i s t h
  have hwf' := buf_wf_of_exec hwf h
  refine ⟨hcfg ▸ hwf', List.all_eq_true.2 fun e he => ?_⟩
  rcases buf_of_exec h with hsame | hempty | ⟨op, p, hpack, hp⟩
  · exact List.all_eq_true.1 hclear e (hsame ▸ he)
  · rw [hempty] at he
    cases he
  · obtain ⟨w, hw, hlane, -⟩ := packedWordsHaveLaneThreeClear op s p hpack e.1 (Memory.lt_of_mem hwf' he)
    rw [← hp, Memory.read_of_mem hwf' he] at hw
    cases hw
    exact decide_eq_true hlane

/-- The handoff invariant, with the last TxStart named. -/
theorem handoffOk_iff {s : State} : s.HandoffOk ↔
    (s.engBusy = true → ∃ ev, s.trace.getLast? = some ev ∧
      (List.range s.cfg.bufWords).map s.buf.read = ev.frame.map some ∧ s.engIdx ≤ s.cfg.bufWords ∧
      s.sent = serialiseFrame (ev.frame.take s.engIdx)) ∧
    (s.engBusy = false → s.sent = []) := by
  simp only [State.HandoffOk, Option.any_eq_true, Bool.and_eq_true, decide_eq_true_eq, and_assoc]

/-- An idle engine that holds no part of a frame meets the handoff invariant. -/
theorem handoffOk_of_idle {s : State} (hidle : s.engBusy = false) (hsent : s.sent = []) : s.HandoffOk :=
  ⟨fun hbusy => absurd (hidle.symm.trans hbusy) nofun, fun _ => hsent⟩

/-- A TX_START of what BUF holds, by an engine that holds no part of a frame, meets the handoff invariant. -/
theorem handoffOk_of_txStart {t : State} {before : List TxStart} {ev : TxStart} (htrace : t.trace = before ++ [ev])
    (hframe : (List.range t.cfg.bufWords).map t.buf.read = ev.frame.map some)
    (hidx : t.engIdx = 0) (hsent : t.sent = []) : t.HandoffOk := by
  refine handoffOk_iff.2 ⟨fun _ => ⟨ev, ?_, hframe, hidx ▸ Nat.zero_le _, ?_⟩, fun _ => hsent⟩
  · rw [htrace, List.getLast?_concat]
  · rw [hidx, hsent]
    rfl

/-- One word more of a frame is its nibbles more. -/
theorem serialiseFrame_take_succ {ws : List Word} {k : Nat} {w : Word} (h : ws[k]? = some w) :
    serialiseFrame (ws.take (k + 1)) = serialiseFrame (ws.take k) ++ serialise w := by
  rw [List.take_add_one, h]
  simp [serialiseFrame]

/-- A RESET leaves the engine idle, with no part of a frame (70_reset_and_hazards.md R272). -/
theorem handoffOk_of_reset {s t : State} (h : exec .reset s = .next t) : t.HandoffOk := by
  cases hadm : s.cfg.admitted with
  | false =>
    rw [exec_reset_of_not_admitted hadm] at h
    cases h
  | true =>
    obtain ⟨_, _, _, -, -, hexec⟩ := resetInitialisesEveryRegister s hadm
    rw [hexec] at h
    cases h
    exact handoffOk_of_idle rfl rfl

section KeepsHandoff
variable {s t : State} (hok : s.HandoffOk)
include hok

/-- An operation that ends by settling keeps the handoff invariant if its effect does. -/
theorem handoffOk_of_settle {r : Except Fault State} (h : s.settle r = .next t) (heffect : r = .ok t → t.HandoffOk) :
    t.HandoffOk := by
  rcases settle_next.1 h with heff | ⟨f, -, rfl⟩
  · exact heffect heff
  · exact hok

theorem handoffOk_of_emitRow (h : s.emitRow = .ok t) : t.HandoffOk := by
  obtain ⟨_, _, _, _, -, hidle, -, -, hframe, rfl⟩ := emitRow_ok.1 h
  exact handoffOk_of_txStart rfl hframe rfl (hok.2 hidle)

theorem handoffOk_of_emitBlank (h : s.emitBlank = .ok t) : t.HandoffOk := by
  obtain ⟨_, _, _, -, hidle, -, hframe, rfl⟩ := emitBlank_ok.1 h
  exact handoffOk_of_txStart rfl hframe rfl (hok.2 hidle)

/-- An enabled ENG.READ sends the next word of the frame that BUF holds. -/
theorem handoffOk_of_engRead (h : exec .engRead s = .next t) : t.HandoffOk := by
  simp only [exec, execEngRead] at h
  split at h
  case isTrue hon =>
    refine handoffOk_of_settle hok h fun heffect => ?_
    obtain ⟨w, hload, hnext⟩ := bind_ok.1 heffect
    cases hnext
    obtain ⟨hbusy, hidx⟩ := engReadEnabled_iff.1 hon
    obtain ⟨-, hread⟩ := Memory.load_ok.1 hload
    obtain ⟨ev, hlast, hframe, -, hsent⟩ := (handoffOk_iff.1 hok).1 hbusy
    have hword : ev.frame[s.engIdx]? = some w := by
      have hget := congrArg (fun ws => ws[s.engIdx]?) hframe
      simpa [List.getElem?_range hidx, hread] using hget.symm
    refine handoffOk_iff.2 ⟨fun _ => ⟨ev, hlast, hframe, hidx, ?_⟩, fun hidle => absurd (hbusy.symm.trans hidle) nofun⟩
    rw [serialiseFrame_take_succ hword, ← hsent]
  case isFalse =>
    cases h
    exact hok

theorem handoffOk_of_engDone (h : exec .engDone s = .next t) : t.HandoffOk := by
  simp only [exec, execEngDone] at h
  split at h
  · cases h
    exact handoffOk_of_idle rfl rfl
  · cases h
    exact hok

/-- An operation that neither resets nor writes the engine keeps the handoff invariant: it writes BUF under an idle engine
only. -/
theorem handoffOk_of_engine_kept {i : Instr} (hi : i ∉ [.reset, .emitRow, .emitBlank, .engRead, .engDone])
    (h : exec i s = .next t) : t.HandoffOk := by
  simp only [List.mem_cons, List.not_mem_nil, or_false, not_or] at hi
  obtain ⟨hreset, hrow, hblank, hread, hdone⟩ := hi
  have hw := writtenBy_of_exec hreset h
  cases hbusy : s.engBusy with
  | false =>
    refine handoffOk_of_idle ?_ ?_
    · rw [hw]
      simp [State.writtenBy, hrow, hblank, hdone, hbusy]
    · rw [hw]
      simp [State.writtenBy, hread, hdone, hok.2 hbusy]
  | true =>
    rw [hw]
    simpa [State.HandoffOk, State.writtenBy, hrow, hblank, hread, hdone, hbusy] using hok

/-- Every operation keeps the handoff invariant. -/
theorem handoffOk_of_exec {i : Instr} (h : exec i s = .next t) : t.HandoffOk := by
  by_cases hi : i ∈ [.reset, .emitRow, .emitBlank, .engRead, .engDone]
  case neg => exact handoffOk_of_engine_kept hok hi h
  simp only [List.mem_cons, List.not_mem_nil, or_false] at hi
  rcases hi with rfl | rfl | rfl | rfl | rfl
  · exact handoffOk_of_reset h
  · exact handoffOk_of_settle hok h (handoffOk_of_emitRow hok)
  · exact handoffOk_of_settle hok h (handoffOk_of_emitBlank hok)
  · exact handoffOk_of_engRead hok h
  · exact handoffOk_of_engDone hok h

end KeepsHandoff

/-- An operation that answers, with the invariant kept. -/
def State.GoesOn (s : State) (i : Instr) : Prop := ∃ t, exec i s = .next t ∧ t.Inv

/-- An operation that leaves MODE, PHASE, the cursor and the fault set right keeps the invariant: the rest of it every
operation keeps. -/
theorem goesOn_of_exec {i : Instr} {s t : State} (hinv : s.Inv) (h : exec i s = .next t) (hcontrol : t.ControlOk)
    (hcursor : t.CursorOk) (hfree : t.faults = []) : s.GoesOn i := by
  obtain ⟨hadm, -, -, hinputs, hbuf, hhandoff, -⟩ := hinv
  obtain ⟨hcfg, -, hsel, -⟩ := romsAndInputsAreNeverWritten i s t h
  refine ⟨t, h, hcfg ▸ hadm, hcontrol, hcursor, ?_, bufferOk_of_exec hbuf h, handoffOk_of_exec hhandoff h, hfree⟩
  rw [State.InputsOk, hcfg, hsel]
  exact hinputs

/-! ## The transition table (43_playback_controller.md R213) -/

/-- The operation of the transition table, in a state whose MODE is not reserved. -/
def State.tableOp (s : State) (reached : Bool) : Instr :=
  match s.phase with
  | .head =>
    if s.pending = true then .evtTake
    else if s.mode = .run then .runStart
    else if s.mode = .wait then (if s.pressed = true then .waitHeld else .waitRel)
    else .haltPoll
  | .txwRow => if s.engBusy = true then .holdTxrow else .emitRow
  | .txwBlank => if s.engBusy = true then .holdTxblank else .emitBlank
  | .sleep => if reached = true then .wake else .holdSleep

/-- Under the invariant REACHED answers and the controller has the table's operation. -/
theorem controllerOp_of_inv {s : State} (hinv : s.Inv) :
    ∃ r, s.reached = .ok r ∧ s.controllerOp = .ok (some (s.tableOp r)) := by
  obtain ⟨r, hr⟩ := reachedIsWrapSafe.2.2 s hinv
  obtain ⟨-, ⟨hmode, -⟩, -, -, -, -, hfree⟩ := hinv
  refine ⟨r, hr, controllerOp_some.2 ⟨hfree, r, hr, ?_⟩⟩
  rw [decodeDv_dvOf, if_neg hmode, State.tableOp]
  cases s.phase with
  | txwRow | txwBlank | sleep => rfl
  | head =>
    cases hm : s.mode with
    | reserved => exact absurd hm hmode
    | run | wait | halt => rfl

/-! The invariant's clauses, by the PHASE and the MODE a state is left in. -/

section Clauses
variable {t : State}

theorem controlOk_of_head (hphase : t.phase = .head) (hmode : t.mode ≠ .reserved) : t.ControlOk := by
  simp [State.ControlOk, hphase, hmode]

theorem controlOk_of_txwRow (hphase : t.phase = .txwRow) (hmode : t.mode = .run)
    (hstart : t.cycleStart.isSome = true) : t.ControlOk := by
  simp [State.ControlOk, hphase, hmode, hstart]

theorem controlOk_of_txwBlank (hphase : t.phase = .txwBlank) (hmode : t.mode = .wait)
    (hstart : t.cycleStart.isSome = true) : t.ControlOk := by
  simp [State.ControlOk, hphase, hmode, hstart]

theorem controlOk_of_sleep (hphase : t.phase = .sleep) (hmode : t.mode ≠ .reserved)
    (hdeadline : t.deadline.isSome = true) : t.ControlOk := by
  simp [State.ControlOk, hphase, hmode, hdeadline]

/-- With the active descriptor named, the clause on the cursor speaks of it alone. -/
theorem cursorOk_iff {d : Descriptor} (hd : t.cfg.anims[t.anim]? = some d) :
    t.CursorOk ↔ (t.mode = .run → d.startCursor ≤ t.cursor.toInt ∧ t.cursor.toInt < d.limit) := by
  obtain ⟨hlt, -⟩ := List.getElem?_eq_some_iff.1 hd
  simp only [State.CursorOk, hd, Option.all_some, decide_eq_true_eq, hlt, true_and]

/-- A cursor at START is in its range. -/
theorem cursorOk_of_start {d : Descriptor} (hadm : t.cfg.admitted = true) (hd : t.cfg.anims[t.anim]? = some d)
    (hcursor : t.cursor = BitVec.ofInt 32 d.startCursor) : t.CursorOk := by
  obtain ⟨hheight, -⟩ := Descriptor.wf_iff.1 (Config.wf_of_getElem? hadm hd)
  have hlimit := Descriptor.limit_pos hheight
  have hstart := d.startCursor_mem
  refine (cursorOk_iff hd).2 fun _ => ?_
  rw [hcursor, d.toInt_ofInt_startCursor]
  omega

end Clauses

section Rows
variable {s : State} (hinv : s.Inv)
include hinv

theorem goesOn_evtTake (hphase : s.phase = .head) : s.GoesOn .evtTake :=
  have ⟨_, _, ⟨hanim, _⟩, _, _, _, hfree⟩ := hinv
  goesOn_of_exec hinv rfl (controlOk_of_head hphase nofun) ⟨hanim, nofun⟩ hfree

theorem goesOn_runStart (hmode : s.mode = .run) : s.GoesOn .runStart :=
  have ⟨_, _, hcursor, _, _, _, hfree⟩ := hinv
  goesOn_of_exec hinv rfl (controlOk_of_txwRow rfl hmode rfl) hcursor hfree

theorem goesOn_waitHeld (hmode : s.mode = .wait) : s.GoesOn .waitHeld :=
  have ⟨_, _, hcursor, _, _, _, hfree⟩ := hinv
  goesOn_of_exec hinv rfl (controlOk_of_txwBlank rfl hmode rfl) hcursor hfree

theorem goesOn_waitRel (hphase : s.phase = .head) : s.GoesOn .waitRel := by
  obtain ⟨hadm, -, -, -, -, -, hfree⟩ := id hinv
  have hd := List.getElem?_eq_getElem (Config.select_lt hadm s.selCode)
  exact goesOn_of_exec hinv (exec_waitRel hd) (controlOk_of_head hphase nofun) (cursorOk_of_start hadm hd rfl) hfree

theorem goesOn_haltPoll : s.GoesOn .haltPoll :=
  have ⟨_, ⟨hmode, _⟩, hcursor, _, _, _, hfree⟩ := hinv
  goesOn_of_exec hinv rfl (controlOk_of_sleep rfl hmode rfl) hcursor hfree

/-- EMIT.ROW under an idle engine passes its checks and has its effect. -/
theorem exec_emitRow_of_inv (hphase : s.phase = .txwRow) (hidle : s.engBusy = false) :
    ∃ (t0 : Time) (d : Descriptor) (m : Memory) (frame : List Word), s.cfg.anims[s.anim]? = some d ∧
      exec .emitRow s = .next { handedOver s m frame (t0 + d.period.setWidth 64) with
        cursor := (d.advanceCursor s.cursor).1
        mode := if (d.advanceCursor s.cursor).2 then .halt else s.mode } := by
  obtain ⟨hadm, ⟨-, -, -, -, hstart⟩, ⟨hanim, -⟩, -⟩ := hinv
  have hd := List.getElem?_eq_getElem hanim
  obtain ⟨t0, ht0⟩ := Option.isSome_iff_exists.1 (hstart (.inl hphase))
  obtain ⟨m, hpack⟩ := pack_row_isOk hadm hd
  obtain ⟨frame, -, hexec⟩ := exec_emitRow_of_pack ht0 hidle hd hpack
  exact ⟨t0, _, m, frame, hd, hexec⟩

/-- EMIT.BLANK under an idle engine passes its checks and has its effect. -/
theorem exec_emitBlank_of_inv (hphase : s.phase = .txwBlank) (hidle : s.engBusy = false) :
    ∃ (t0 : Time) (m : Memory), exec .emitBlank s = .next
      (handedOver s m (List.replicate (3 * s.cfg.n) 0) (t0 + BitVec.ofNat 64 s.cfg.poll)) := by
  obtain ⟨-, ⟨-, -, -, -, hstart⟩, -⟩ := hinv
  obtain ⟨t0, ht0⟩ := Option.isSome_iff_exists.1 (hstart (.inr hphase))
  obtain ⟨m, -, hexec⟩ := emitBlankSendsZeros.2 s t0 ht0 hidle
  exact ⟨t0, m, hexec⟩

/-- After EMIT.ROW the animation has halted or its cursor is in its range. -/
theorem goesOn_emitRow (hphase : s.phase = .txwRow) (hidle : s.engBusy = false) : s.GoesOn .emitRow := by
  obtain ⟨t0, d, m, frame, hd, hexec⟩ := exec_emitRow_of_inv hinv hphase hidle
  obtain ⟨hadm, ⟨-, hrow, -⟩, hcursor, -, -, -, hfree⟩ := id hinv
  obtain ⟨hheight, -⟩ := Descriptor.wf_iff.1 (Config.wf_of_getElem? hadm hd)
  have hrun := hrow hphase
  obtain ⟨hlo, hhi⟩ := (cursorOk_iff hd).1 hcursor hrun
  refine goesOn_of_exec hinv hexec (controlOk_of_sleep rfl ?mode rfl) ?cursor hfree
  case mode =>
    simp only [hrun]
    split <;> nofun
  case cursor =>
    refine (cursorOk_iff (by exact hd)).2 fun hgoes => Descriptor.advanceCursor_mem hheight hlo hhi fun hhalt => ?_
    simp [hhalt] at hgoes

theorem goesOn_emitBlank (hphase : s.phase = .txwBlank) (hidle : s.engBusy = false) : s.GoesOn .emitBlank := by
  obtain ⟨t0, m, hexec⟩ := exec_emitBlank_of_inv hinv hphase hidle
  obtain ⟨-, ⟨hmode, -⟩, hcursor, -, -, -, hfree⟩ := id hinv
  exact goesOn_of_exec hinv hexec (controlOk_of_sleep rfl hmode rfl) hcursor hfree

theorem goesOn_wake : s.GoesOn .wake :=
  have ⟨_, ⟨hmode, _⟩, hcursor, _, _, _, hfree⟩ := hinv
  goesOn_of_exec hinv rfl (controlOk_of_head rfl hmode) hcursor hfree

theorem goesOn_hold {i : Instr} (hi : i ∈ holdOps) : s.GoesOn i := ⟨s, exec_hold hi s, hinv⟩

/-- Every row of the table answers and keeps the invariant. -/
theorem goesOn_tableOp (r : Bool) : s.GoesOn (s.tableOp r) := by
  unfold State.tableOp
  split
  case h_1 hphase =>
    split_ifs with _ hrun hwait
    · exact goesOn_evtTake hinv hphase
    · exact goesOn_runStart hinv hrun
    · exact goesOn_waitHeld hinv hwait
    · exact goesOn_waitRel hinv hphase
    · exact goesOn_haltPoll hinv
  case h_2 hphase =>
    split
    · exact goesOn_hold hinv (by simp [holdOps])
    · exact goesOn_emitRow hinv hphase (by simpa using ‹¬s.engBusy = true›)
  case h_3 hphase =>
    split
    · exact goesOn_hold hinv (by simp [holdOps])
    · exact goesOn_emitBlank hinv hphase (by simpa using ‹¬s.engBusy = true›)
  case h_4 =>
    split
    · exact goesOn_wake hinv
    · exact goesOn_hold hinv (by simp [holdOps])

theorem goesOn_reset : s.GoesOn .reset := by
  obtain ⟨hadm, -⟩ := id hinv
  obtain ⟨d, now, idx, hd, -, hexec⟩ := resetInitialisesEveryRegister s hadm
  exact goesOn_of_exec hinv hexec (controlOk_of_head rfl nofun)
    (cursorOk_of_start hadm hd d.ofInt_startCursor.symm) rfl

/-- ENG.READ under the invariant reads a word of the frame, so it raises no fault. -/
theorem goesOn_engRead (hon : s.engReadEnabled = true) : s.GoesOn .engRead := by
  obtain ⟨-, hcontrol, hcursor, -, -, hhandoff, hfree⟩ := id hinv
  obtain ⟨hbusy, hidx⟩ := engReadEnabled_iff.1 hon
  obtain ⟨ev, -, hframe, -⟩ := (handoffOk_iff.1 hhandoff).1 hbusy
  obtain ⟨w, hw⟩ : ∃ w, s.buf.read s.engIdx = some w := by
    have hmem : s.buf.read s.engIdx ∈ ev.frame.map some := hframe ▸ List.mem_map_of_mem (List.mem_range.2 hidx)
    obtain ⟨w, -, hw⟩ := List.mem_map.1 hmem
    exact ⟨w, hw.symm⟩
  exact goesOn_of_exec hinv (exec_engRead_of_read hon hw) hcontrol hcursor hfree

theorem goesOn_engDone (hon : s.engDoneEnabled = true) : s.GoesOn .engDone :=
  have ⟨_, hcontrol, hcursor, _, _, _, hfree⟩ := hinv
  goesOn_of_exec hinv (if_pos hon) hcontrol hcursor hfree

/-- Every agent's turn answers and keeps the invariant. -/
theorem inv_of_turn (a : Agent) : ∃ t, s.turn a = .next t ∧ t.Inv := by
  obtain ⟨-, hcontrol, hcursor, -, -, -, hfree⟩ := id hinv
  cases a with
  | controller =>
    obtain ⟨r, -, hop⟩ := controllerOp_of_inv hinv
    simp only [State.turn, State.opOf, hop]
    exact goesOn_tableOp hinv r
  | buttonHandler => exact goesOn_of_exec (i := .btnEdge) hinv rfl hcontrol hcursor hfree
  | timeBase => exact goesOn_of_exec (i := .tick) hinv rfl hcontrol hcursor hfree
  | environment => exact goesOn_reset hinv
  | engine =>
    rcases engineOp_cases s with ⟨hon, hop⟩ | ⟨-, hon, hop⟩ | ⟨-, -, hop⟩ <;> simp only [State.turn, State.opOf, hop]
    · exact goesOn_engRead hinv hon
    · exact goesOn_engDone hinv hon
    · exact ⟨s, rfl, hinv⟩

/-- The settings of a line keep the invariant: a selector code keeps its width. -/
theorem inv_applySettings (xs : List Setting) : (s.applySettings xs).Inv := by
  obtain ⟨hadm, hcontrol, hcursor, hinputs, hbuf, hhandoff, hfree⟩ := hinv
  have hsel := applySettings_selCode_lt s xs hinputs
  obtain ⟨b, c, o, h⟩ := applySettings_eq s xs
  rw [h] at hsel ⊢
  exact ⟨hadm, hcontrol, hcursor, hsel, hbuf, hhandoff, hfree⟩

end Rows

/-- Settles O55: the line taken and its settings keep the invariant, and so does its agent's turn. -/
theorem stepKeepsInvariant : Obligations.StepKeepsInvariant := by
  intro s hinv
  obtain ⟨sc, k, hline⟩ := nextLine_eq s
  have hinv' : s.nextLine.2.Inv := by
    rw [hline]
    exact hinv
  rw [step_of_admitted hinv.1]
  exact inv_of_turn (inv_applySettings hinv' _) _

/-- The effect of an operation that is known by another name is the one known there. -/
theorem eq_and_next_eq {i j : Instr} {s t u : State} (ht : exec i s = .next t) (hi : i = j)
    (hu : exec j s = .next u) : i = j ∧ t = u := by
  subst hi
  exact ⟨rfl, Host.Outcome.next.inj (ht.symm.trans hu)⟩

/-- Settles O56: the row's PHASE, MODE and condition give the operation by `State.tableOp`, and the operation its effect. -/
theorem controllerFollowsTheTransitionTable : Obligations.ControllerFollowsTheTransitionTable := by
  intro s hinv
  obtain ⟨hadm, ⟨-, hrow, hblank, -⟩, -⟩ := id hinv
  obtain ⟨r, hr, hop⟩ := controllerOp_of_inv hinv
  obtain ⟨t, ht, -⟩ := goesOn_tableOp hinv r
  refine ⟨s.tableOp r, t, hop, ht, ?take, ?start, ?emitRow, ?held, ?emitBlank, ?rel, ?poll, ?wake, ?holdRow, ?holdBlank,
    ?holdSleep⟩
  case take =>
    intro hphase hpending
    obtain ⟨hi, rfl⟩ := eq_and_next_eq (j := .evtTake) ht (by simp [State.tableOp, hphase, hpending]) rfl
    exact ⟨hi, rfl, hphase⟩
  case start =>
    intro hphase hpending hmode
    obtain ⟨hi, rfl⟩ := eq_and_next_eq (j := .runStart) ht (by simp [State.tableOp, hphase, hpending, hmode]) rfl
    exact ⟨hi, hmode, rfl⟩
  case emitRow =>
    intro hphase hidle
    obtain ⟨t0, d, m, frame, hd, hexec⟩ := exec_emitRow_of_inv hinv hphase hidle
    obtain ⟨hi, rfl⟩ := eq_and_next_eq ht (by simp [State.tableOp, hphase, hidle]) hexec
    refine ⟨hi, rfl, d, hd, ?_⟩
    simp only [hrow hphase, Descriptor.advanceCursor_halts_iff]
  case held =>
    intro hphase hpending hmode hbtn
    obtain ⟨hi, rfl⟩ := eq_and_next_eq (j := .waitHeld) ht
      (by simp [State.tableOp, hphase, hpending, hmode, State.pressed, hbtn]) rfl
    exact ⟨hi, hmode, rfl⟩
  case emitBlank =>
    intro hphase hidle
    obtain ⟨t0, m, hexec⟩ := exec_emitBlank_of_inv hinv hphase hidle
    obtain ⟨hi, rfl⟩ := eq_and_next_eq ht (by simp [State.tableOp, hphase, hidle]) hexec
    exact ⟨hi, hblank hphase, rfl⟩
  case rel =>
    intro hphase hpending hmode hbtn
    have hd := List.getElem?_eq_getElem (Config.select_lt hadm s.selCode)
    obtain ⟨hi, rfl⟩ := eq_and_next_eq ht
      (by simp [State.tableOp, hphase, hpending, hmode, State.pressed, hbtn]) (exec_waitRel hd)
    exact ⟨hi, rfl, hphase⟩
  case poll =>
    intro hphase hpending hmode
    obtain ⟨hi, rfl⟩ := eq_and_next_eq (j := .haltPoll) ht (by simp [State.tableOp, hphase, hpending, hmode]) rfl
    exact ⟨hi, hmode, rfl⟩
  case wake =>
    intro hphase hreached
    cases hr.symm.trans hreached
    obtain ⟨hi, rfl⟩ := eq_and_next_eq (j := .wake) ht (by simp [State.tableOp, hphase]) rfl
    exact ⟨hi, rfl, rfl⟩
  case holdRow =>
    intro hphase hbusy
    exact eq_and_next_eq (j := .holdTxrow) ht (by simp [State.tableOp, hphase, hbusy]) rfl
  case holdBlank =>
    intro hphase hbusy
    exact eq_and_next_eq (j := .holdTxblank) ht (by simp [State.tableOp, hphase, hbusy]) rfl
  case holdSleep =>
    intro hphase hreached
    cases hr.symm.trans hreached
    exact eq_and_next_eq (j := .holdSleep) ht (by simp [State.tableOp, hphase]) rfl

end Machine
end Sys2Proof

/-! The family of 60_exceptions.md: the priority at HEAD, what a fault records, and the controller after a fault. -/
namespace Sys2Proof.Machine

/-! ## The controller's operation (60_exceptions.md R246) -/

/-- The controller's operation by the fields of the decode vector, where REACHED may fail. -/
theorem controllerOp_eq_ite (s : State) : s.controllerOp =
    if s.faults = [] then
      s.reached.map fun r => decodeDv (dvOf s.phase s.mode s.pending s.pressed s.txBusy r)
    else .ok none := by
  unfold State.controllerOp State.decodeVector
  cases s.reached <;> rfl

/-- Outside HEAD the decode does not examine PENDING. -/
theorem decodeDv_dvOf_pending_congr {phase : Phase} (h : phase ≠ .head) (mode : Mode)
    (p p' pressed busy reached : Bool) :
    decodeDv (dvOf phase mode p pressed busy reached) = decodeDv (dvOf phase mode p' pressed busy reached) := by
  rw [decodeDv_dvOf, decodeDv_dvOf]
  cases phase with
  | head => exact absurd rfl h
  | txwRow | txwBlank | sleep => rfl

/-- REACHED does not read PENDING. -/
theorem reached_with_pending (s : State) (p : Bool) : ({ s with pending := p } : State).reached = s.reached := rfl

/-- Settles O4: at HEAD REACHED is 0 and the vector selects by MODE and PENDING; in the other phases neither REACHED nor
the decode examines PENDING. -/
theorem headPriority : Obligations.HeadPriority := by
  refine ⟨fun s hfree hhead => ?head, fun s p hphase => ?other⟩
  case head =>
    have hreached : s.reached = .ok false := reached_of_ne_sleep (by simp [hhead])
    refine controllerOp_some.2 ⟨hfree, false, hreached, ?_⟩
    rw [decodeDv_dvOf, hhead]
    cases s.mode <;> rfl
  case other =>
    rw [controllerOp_eq_ite, controllerOp_eq_ite, reached_with_pending]
    simp only [decodeDv_dvOf_pending_congr hphase s.mode p s.pending]
    rfl

/-! ## Faults (60_exceptions.md R240, R244, R251) -/

/-- A raised fault is in the fault set already, or joins it as its last. -/
theorem raise_eq_self_or (s : State) (f : Fault) :
    s.raise f = s ∨ f ∉ s.faults ∧ s.raise f = { s with faults := s.faults ++ [f] } := by
  by_cases hf : f ∈ s.faults
  · exact .inl (by simp only [State.raise, if_pos hf])
  · exact .inr ⟨hf, by simp only [State.raise, if_neg hf]⟩

/-- An operation that ends by settling keeps the fault set if its effect does, or raises a fault. -/
theorem faults_of_settle {s t : State} {r : Except Fault State} (h : s.settle r = .next t)
    (heffect : r = .ok t → t.faults = s.faults) : t.faults = s.faults ∨ ∃ f, t = s.raise f := by
  rcases settle_next.1 h with hok | ⟨f, -, hraise⟩
  · exact .inl (heffect hok)
  · exact .inr ⟨f, hraise⟩

/-- A pack run on its own keeps the fault set or raises a fault. -/
theorem faults_of_pack {s t : State} {op : BitVec 2} (h : s.settle (do s.checkBufFree; s.pack op) = .next t) :
    t.faults = s.faults ∨ ∃ f, t = s.raise f := by
  refine faults_of_settle h fun hok => ?_
  obtain ⟨-, hbuf⟩ := checkBufFree_pack_ok hok
  rw [hbuf]

/-- ENG.READ keeps the fault set, except where the word it reads holds no value. -/
theorem faults_of_engRead {s t : State} (h : exec .engRead s = .next t) :
    t.faults = s.faults ∨ ∃ f, t = s.raise f := by
  simp only [exec, execEngRead] at h
  split at h
  · refine faults_of_settle h fun hok => ?_
    obtain ⟨_, -, hnext⟩ := bind_ok.1 hok
    cases hnext
    rfl
  · cases h
    exact .inl rfl

/-- An operation other than RESET keeps the fault set or raises a fault. -/
theorem faults_of_exec {i : Instr} {s t : State} (hi : i ≠ .reset) (h : exec i s = .next t) :
    t.faults = s.faults ∨ ∃ f, t = s.raise f := by
  cases i with
  | reset => exact absurd rfl hi
  | emitRow =>
    refine faults_of_settle h fun hok => ?_
    obtain ⟨_, _, _, _, -, -, -, -, -, rfl⟩ := emitRow_ok.1 hok
    rfl
  | emitBlank =>
    refine faults_of_settle h fun hok => ?_
    obtain ⟨_, _, _, -, -, -, -, rfl⟩ := emitBlank_ok.1 hok
    rfl
  | waitRel =>
    refine faults_of_settle h fun hok => ?_
    obtain ⟨_, -, rfl⟩ := leaveWait_ok.1 hok
    rfl
  | packSingle | packComp | packBlank => exact faults_of_pack h
  | faultMode =>
    refine faults_of_settle h fun hok => ?_
    obtain ⟨_, -, herror⟩ := bind_ok.1 hok
    cases herror
  | faultPkop => exact faults_of_settle (r := s.pack 3#2) h fun hok => nomatch hok
  | rowbyte ref o =>
    refine faults_of_settle h fun hok => ?_
    obtain ⟨_, -, hshown⟩ := bind_ok.1 hok
    cases hshown
    rfl
  | engRead => exact faults_of_engRead h
  | engDone =>
    simp only [exec, execEngDone] at h
    split at h <;> cases h <;> exact .inl rfl
  | extract d y =>
    simp only [exec, execExtract] at h
    split at h <;> cases h
    exact .inl rfl
  | evtTake | runStart | waitHeld | haltPoll | holdTxrow | holdTxblank | wake | holdSleep | spread | interleave
  | limit | start | advance | select | btnEdge | tick =>
    cases h
    exact .inl rfl

/-- Settles O49: a raised fault that was in the set already leaves the state as it was, a new one joins it. -/
theorem faultingOperationHasNoOtherEffect : Obligations.FaultingOperationHasNoOtherEffect := by
  intro i s t hi h
  rcases faults_of_exec hi h with hkept | ⟨f, rfl⟩
  · exact .inl hkept
  · rcases raise_eq_self_or s f with hself | ⟨hnew, hrecorded⟩
    · exact .inl (congrArg State.faults hself)
    · exact .inr ⟨f, hnew, hrecorded⟩

/-- Settles O6: the pattern of FAULT.MODE, and the fault it raises with the vector. -/
theorem faultModeRecordsDv : Obligations.FaultModeRecordsDv := by
  refine ⟨fun dv => ?selected, fun s dv hdv => ?recorded⟩
  case selected =>
    rw [decodeDv_eq_some_iff]
    constructor
    · rintro ⟨⟨_, _, hpattern, hhit⟩, -⟩
      cases hpattern
      exact hhit
    · exact fun hhit => ⟨⟨_, _, rfl, hhit⟩, fun hne => absurd rfl hne⟩
  case recorded =>
    have hraise : exec .faultMode s = .next (s.raise (.reservedMode dv)) := by
      simp only [exec, execFaultMode, hdv]
      rfl
    exact hraise

/-- Once a fault is recorded the controller's turn leaves the state as it is. -/
theorem turn_controller_of_faulted {s : State} (h : s.faults ≠ []) : s.turn .controller = .next s := by
  simp only [State.turn, State.opOf, State.controllerOp, if_neg h]

/-- Settles O48: the line's settings record no fault and clear none; then the controller has no operation, and the time
base has its tick. -/
theorem faultedControllerIsQuiescent : Obligations.FaultedControllerIsQuiescent := by
  intro s sets rest hadm hfaulted
  constructor
  · intro hs
    rw [step_of_script hadm hs]
    exact turn_controller_of_faulted (by simpa using hfaulted)
  · intro hs
    rw [step_of_script hadm hs]
    exact ⟨_, rfl, by simp, by simp⟩

end Sys2Proof.Machine

/-! The family of 70_reset_and_hazards.md: the trace of TxStart events and what the LEDs show, under every step. -/
namespace Sys2Proof.Machine

/-! ## The trace and the latch (43_playback_controller.md R206, R208, R214) -/

/-- The latch invariant, with the TxStart named. -/
theorem latchOk_iff {s : State} : s.LatchOk ↔
    s.latched = [] ∨ ∃ ev ∈ s.trace, s.latched = serialiseFrame ev.frame := by
  simp only [State.LatchOk, List.any_eq_true, decide_eq_true_eq]

/-- The trace invariant, event by event. -/
theorem traceOk_iff {s : State} : s.TraceOk ↔
    ∀ ev ∈ s.trace, ev.base = 0 ∧ ev.count = s.cfg.bufWords ∧ ev.frame.length = s.cfg.bufWords := by
  simp only [State.TraceOk, List.all_eq_true, Bool.and_eq_true, decide_eq_true_eq, and_assoc]

/-- The frame that BUF holds is `3N` words long. -/
theorem length_of_frame {words : Nat} {m : Memory} {frame : List Word}
    (h : (List.range words).map m.read = frame.map some) : frame.length = words := by
  simpa using (congrArg List.length h).symm

/-- RESET keeps what the LEDs show and the trace (log 18). -/
theorem latched_and_trace_of_reset {s t : State} (h : exec .reset s = .next t) :
    t.latched = s.latched ∧ t.trace = s.trace := by
  cases hadm : s.cfg.admitted with
  | false =>
    rw [exec_reset_of_not_admitted hadm] at h
    cases h
  | true =>
    obtain ⟨_, _, _, -, -, hexec⟩ := resetInitialisesEveryRegister s hadm
    rw [hexec] at h
    cases h
    exact ⟨rfl, rfl⟩

/-- After an operation the trace is as before, or has one more TxStart, of the whole buffer. -/
theorem trace_of_exec {i : Instr} {s t : State} (h : exec i s = .next t) :
    t.trace = s.trace ∨ ∃ now frame, frame.length = s.cfg.bufWords ∧
      t.trace = s.trace ++ [{ time := now, base := 0, count := s.cfg.bufWords, frame := frame }] := by
  by_cases hsame : t.trace = s.trace
  · exact .inl hsame
  by_cases hi : i = .reset
  · subst hi
    exact .inl (latched_and_trace_of_reset h).2
  have hwriter := writer_of_ne (congrArg State.trace (writtenBy_of_exec hi h)) hsame
  rcases hwriter with rfl | rfl <;> rcases settle_next.1 h with heffect | ⟨f, -, rfl⟩
  · obtain ⟨_, _, _, frame, -, -, -, -, hframe, rfl⟩ := emitRow_ok.1 heffect
    exact .inr ⟨_, frame, length_of_frame hframe, rfl⟩
  · exact .inl rfl
  · obtain ⟨_, _, frame, -, -, -, hframe, rfl⟩ := emitBlank_ok.1 heffect
    exact .inr ⟨_, frame, length_of_frame hframe, rfl⟩
  · exact .inl rfl

/-- After an operation the LEDs show what they showed, or what a busy engine at the end of BUF had sent. -/
theorem latched_of_exec {i : Instr} {s t : State} (h : exec i s = .next t) :
    t.latched = s.latched ∨ (s.engBusy = true ∧ s.engIdx = s.cfg.bufWords ∧ t.latched = s.sent) := by
  by_cases hsame : t.latched = s.latched
  · exact .inl hsame
  by_cases hi : i = .reset
  · subst hi
    exact .inl (latched_and_trace_of_reset h).1
  obtain rfl := writer_of_ne (congrArg State.latched (writtenBy_of_exec hi h)) hsame
  simp only [exec, execEngDone] at h
  split at h
  case isTrue hon =>
    cases h
    obtain ⟨hbusy, hend⟩ := engDoneEnabled_iff.1 hon
    exact .inr ⟨hbusy, hend, rfl⟩
  case isFalse =>
    cases h
    exact absurd rfl hsame

/-- A busy engine that is at the end of BUF has sent the whole frame of the last TxStart. -/
theorem sent_whole_frame {s : State} (hok : s.HandoffOk) (hbusy : s.engBusy = true)
    (hend : s.engIdx = s.cfg.bufWords) : ∃ ev ∈ s.trace, s.sent = serialiseFrame ev.frame := by
  obtain ⟨ev, hlast, hframe, -, hsent⟩ := (handoffOk_iff.1 hok).1 hbusy
  refine ⟨ev, List.mem_of_getLast? hlast, ?_⟩
  rw [hsent, hend, ← length_of_frame hframe, List.take_length]

/-- No operation takes a TxStart out of the trace. -/
theorem mem_trace_of_exec {i : Instr} {s t : State} (h : exec i s = .next t) {ev : TxStart} (hev : ev ∈ s.trace) :
    ev ∈ t.trace := by
  rcases trace_of_exec h with hsame | ⟨_, _, -, hmore⟩
  · rwa [hsame]
  · rw [hmore]
    exact List.mem_append_left _ hev

/-- Every operation keeps the latch invariant: the reset gap latches a whole frame (70_reset_and_hazards.md R274). -/
theorem latchOk_of_exec {i : Instr} {s t : State} (hhandoff : s.HandoffOk) (hlatch : s.LatchOk)
    (h : exec i s = .next t) : t.LatchOk := by
  refine latchOk_iff.2 ?_
  rcases latched_of_exec h with hsame | ⟨hbusy, hend, hsent⟩
  · rw [hsame]
    rcases latchOk_iff.1 hlatch with hnone | ⟨ev, hev, hshown⟩
    · exact .inl hnone
    · exact .inr ⟨ev, mem_trace_of_exec h hev, hshown⟩
  · obtain ⟨ev, hev, hwhole⟩ := sent_whole_frame hhandoff hbusy hend
    exact .inr ⟨ev, mem_trace_of_exec h hev, hsent.trans hwhole⟩

/-- Every operation keeps the trace invariant. -/
theorem traceOk_of_exec {i : Instr} {s t : State} (htrace : s.TraceOk) (h : exec i s = .next t) : t.TraceOk := by
  obtain ⟨hcfg, -⟩ := romsAndInputsAreNeverWritten i s t h
  refine traceOk_iff.2 fun ev hev => ?_
  rw [hcfg]
  rcases trace_of_exec h with hsame | ⟨_, _, hlength, hmore⟩
  · exact traceOk_iff.1 htrace ev (hsame ▸ hev)
  · rw [hmore] at hev
    rcases List.mem_append.1 hev with hold | hnew
    · exact traceOk_iff.1 htrace ev hold
    · obtain rfl := List.mem_singleton.1 hnew
      exact ⟨rfl, rfl, hlength⟩

/-- A turn keeps the three invariants: its operation does, and a raised fault is no part of them. -/
theorem frames_whole_of_turn {s t : State} {a : Agent} (hhandoff : s.HandoffOk) (hlatch : s.LatchOk)
    (htrace : s.TraceOk) (h : s.turn a = .next t) : t.HandoffOk ∧ t.LatchOk ∧ t.TraceOk := by
  rcases turn_next h with ⟨i, hexec⟩ | rfl | ⟨f, rfl⟩
  · exact ⟨handoffOk_of_exec hhandoff hexec, latchOk_of_exec hhandoff hlatch hexec, traceOk_of_exec htrace hexec⟩
  · exact ⟨hhandoff, hlatch, htrace⟩
  · exact ⟨hhandoff, hlatch, htrace⟩

/-- Settles O57: what a line changes before its turn is no part of the three invariants, and the turn keeps them. -/
theorem framesAreNeverTorn : Obligations.FramesAreNeverTorn := by
  intro s t hhandoff hlatch htrace h
  obtain ⟨a, _, _, _, _, _, hturn⟩ := step_next h
  exact frames_whole_of_turn (by exact hhandoff) (by exact hlatch) (by exact htrace) hturn

end Sys2Proof.Machine
